-- ==== Sys2Proof/Word.lean ====
section
/-! DEFINITION. The values the encoder block works on: bytes, data words and the group of four input bytes
(00_scope.md R9 and glossary). Every value is unsigned unless it is typed `Int`. -/

namespace Sys2Proof

/-- An unsigned 8-bit value (R9). -/
abbrev Byte := BitVec 8

/-- An unsigned 32-bit value, the Data Word of the source (R9). -/
abbrev Word := BitVec 32

/-- Four consecutive input bytes, in input order (00_scope.md glossary, "Group"). -/
structure Group where
  b0 : Byte
  b1 : Byte
  b2 : Byte
  b3 : Byte
  deriving DecidableEq, Repr

end Sys2Proof
end

