-- ==== Sys2Proof/Config.lean ====
section
/-! DEFINITION. The fixed design parameters of the block (00_scope.md R7): constants of the hardware, neither
registers nor free values (10_state.md R21). The spec leaves no result value open, so no opaque constant
stands here. -/

namespace Sys2Proof

/-- `DATA_W`: bits per data word (R7). -/
@[simp] abbrev Config.dataW : Nat := 32

/-- `CHK_N`: meaningful check bits P0..P6 (R7). -/
@[simp] abbrev Config.chkN : Nat := 7

/-- `CHK_W`: width of the emitted check byte; its bit 7 is 0 (R7). -/
@[simp] abbrev Config.chkW : Nat := 8

/-- `GROUP_IN`: input bytes per group (R7). -/
@[simp] abbrev Config.groupIn : Nat := 4

/-- `GROUP_OUT`: output bytes per group, four data bytes and the check byte (R7). -/
@[simp] abbrev Config.groupOut : Nat := 5

/-- `BLOCK`: physical block size in bytes (R7). -/
@[simp] abbrev Config.block : Nat := 32

/-- `PAYLOAD`: the counter value that triggers the filler (R7). -/
@[simp] abbrev Config.payload : Nat := 30

/-- `FILL_N`: filler bytes per block (R7). -/
@[simp] abbrev Config.fillN : Nat := 2

/-- `FILL_V`: the value of a filler byte (R7). -/
@[simp] abbrev Config.fillV : Byte := 0x00#8

/-- `STRIDE`: the counter's advance per group (R7). -/
@[simp] abbrev Config.stride : Nat := 5

/-- `LOC_N`: locator parity bits P0..P5 (R7). -/
@[simp] abbrev Config.locN : Nat := 6

/-- `CODE_N`: length of the codeword, 32 data bits and 7 check bits (R7). -/
@[simp] abbrev Config.codeN : Nat := 39

/-- The largest legal check code: a code outside `[0, 127]` is a fatal assertion (60_exceptions.md R95). -/
@[simp] abbrev Config.codeMax : Nat := 127

end Sys2Proof
end

