-- ==== Sys2Proof/Syntax.lean ====
section
/-! DEFINITION. The commands of the block (30_encoding.md R51), which stand for its instructions (00_scope.md R4):
one constructor per row of spec/opcode_table.json, with the abstract operands of R51. -/

namespace Sys2Proof

/-- A command with its operands by value (R51). The operand ranges are those of the abstract interface: an
address is any `Int` and an image has any length (00_scope.md R8). `Instr.wellFormed` says which commands the
binary form can carry. -/
inductive Instr where
  /-- `ENC w`: the check code of one word (40_word_coder.md R67). -/
  | enc (w : Word)
  /-- `START a`: seed the block position counter (41_block_layout.md R71). -/
  | start (a : Int)
  /-- `GROUP b0, b1, b2, b3`: encode one group onto the output stream (41_block_layout.md R73). -/
  | group (b0 b1 b2 b3 : Byte)
  /-- `XFORM a, [image]`: transform a whole image (41_block_layout.md R81). -/
  | xform (image : List Byte) (a : Int)
  deriving DecidableEq, Repr

end Sys2Proof
end

