-- ==== Sys2Proof/Machine/State.lean ====
section
/-! DEFINITION. The state of the encoder block (10_state.md R13) and, beside it, the command, reset and response
channels of R14 as plain data, with the reasons a step can stop. -/

namespace Sys2Proof.Machine

/-- One message on the host-to-block channels (R14). DESIGN CHOICE, log entry 1. -/
inductive Request where
  /-- A byte string in the binary command form (30_encoding.md R52, R57). Log entry 2. -/
  | bytes (bs : List Byte)
  /-- A command at the abstract interface, its operands of any size (30_encoding.md R51; 00_scope.md R8). -/
  | command (i : Instr)
  /-- A reset event (70_reset_and_hazards.md R103). -/
  | reset
  deriving DecidableEq, Repr

/-- The value of a response with status OK (60_exceptions.md R89). -/
inductive Result where
  /-- ENC: the check byte. -/
  | checkByte (c : Byte)
  /-- XFORM: the output byte sequence. -/
  | bytes (bs : List Byte)
  /-- START and GROUP: nothing. -/
  | nothing
  deriving DecidableEq, Repr

/-- The errors a command is answered with, each with its recorded value (60_exceptions.md R90). ERR_INTERNAL is not
among them: it is a fault (R95). -/
inductive CommandError where
  /-- ERR_INPUT_LENGTH, raised by XFORM, records `len(s)` (R91). -/
  | inputLength (len : Nat)
  /-- ERR_ADDRESS, raised by START and XFORM, records `a` (R92). -/
  | address (a : Int)
  /-- ERR_NOT_STARTED, raised by GROUP, records nothing (R93). -/
  | notStarted
  /-- ERR_ILLEGAL_OP, raised by the decoder, records the opcode byte (R94). -/
  | illegalOp (op : Byte)
  deriving DecidableEq, Repr

/-- The one response every command returns (60_exceptions.md R89). Its status is the constructor; the numbers of
R90 are in Machine/Flags.lean. -/
inductive Response where
  | ok (value : Result)
  | error (e : CommandError)
  deriving DecidableEq, Repr

/-- The machine. `cnt` and `out` are the spec's whole architectural state (R13); `inbox` and `responses` are the
channels of R14, the model's own fields (log entries 1 and 3). -/
structure State where
  /-- The Physical Block Position Counter: `none` until a START, unbounded and never wrapped after (R17, R18). -/
  cnt : Option Nat
  /-- The output stream log, in emission order, append-only (R19). -/
  out : List Byte
  /-- Requests the host has sent and the block has not taken, oldest first (R14, R45). -/
  inbox : List Request
  /-- Responses given, oldest first (R14, R89). -/
  responses : List Response
  deriving DecidableEq, Repr

/-- What stops the machine. -/
inductive Fault where
  /-- ERR_INTERNAL, status code 5, with the offending code: ENC, GROUP and XFORM would raise it through
  `assertCodes` if a computed check code were outside `[0, 127]` (60_exceptions.md R95, R90). A fatal assertion,
  never cleared. Safe: the machine stops where the spec says it must; 40_word_coder.md R65 says it cannot
  happen. -/
  | errInternal (code : Byte)
  deriving DecidableEq, Repr

/-- What has no meaning in the model. -/
inductive Refusal where
  /-- An instruction without a meaning yet, raised by `exec`'s arm of that name alone; no arm raises it. Safe: a
  refused command proves nothing. -/
  | notModelled (mnemonic : String)
  deriving DecidableEq, Repr

/-- Power-on and reset state (10_state.md R27; 70_reset_and_hazards.md R103, R105): the counter unseeded, the
output stream empty. The channels are empty too: DESIGN CHOICE, log entry 8. -/
def State.reset : State where
  cnt := none
  out := []
  inbox := []
  responses := []

end Sys2Proof.Machine
end

