-- ==== Sys2Proof/Machine/Operands.lean ====
section
/-! DEFINITION. Every operand form of the commands: the data word of a group (30_encoding.md R48), the offset of a
start address (R58) and the groups of an image (20_memory.md R29). The block has no registers and no memory, so
a command names its operands by value (10_state.md R15). -/

namespace Sys2Proof.Machine

/-- `Word(b0, b1, b2, b3) = b3 : b2 : b1 : b0`, little-endian (30_encoding.md R48, 20_memory.md R28). -/
def dataWord (g : Group) : Word := g.b3 ++ g.b2 ++ g.b1 ++ g.b0

/-- The offset `a mod 32`, the only use made of an address (30_encoding.md R58, 41_block_layout.md R88). It is
read only where `a` is not negative. -/
def startOffset (a : Int) : Nat := (a % (Config.block : Int)).toNat

/-- `MemRead(s, i, n)`: the `n` bytes from index `i` of an input sequence (00_scope.md R11). -/
def memRead (s : List Byte) (i n : Nat) : List Byte := (s.drop i).take n

/-- The image as consecutive groups, in order (20_memory.md R29). A rest of fewer than four bytes is no group; the
length check of XFORM comes before (R33). -/
def groupsOf : List Byte → List Group
  | b0 :: b1 :: b2 :: b3 :: rest => ⟨b0, b1, b2, b3⟩ :: groupsOf rest
  | _ => []

/-- The bytes of a group, in input order. -/
def groupData (g : Group) : List Byte := [g.b0, g.b1, g.b2, g.b3]

/-- The length precondition of XFORM: a positive multiple of 4 (20_memory.md R33). -/
def imageLengthOk (image : List Byte) : Bool :=
  decide (image.length ≠ 0 ∧ image.length % Config.groupIn = 0)

end Sys2Proof.Machine
end

