-- ==== Sys2Proof/Machine/Ops.lean ====
section
/-! DEFINITION. The named operations over the state that the meanings share: seeding and reading the counter, emitting
bytes, answering a command, taking an error, the reset event, the fatal assertion on a check code, and the
host's side of the channels. The block has no memory and no registers to read or write (10_state.md R15, R25). -/

namespace Sys2Proof.Machine

/-- `cnt <- some c` (00_scope.md R11). -/
def State.seed (c : Nat) (s : State) : State := { s with cnt := some c }

/-- `Emit(bs)`: append each byte in order to the output stream (00_scope.md R11, 10_state.md R19). -/
def State.emit (bs : List Byte) (s : State) : State := { s with out := s.out ++ bs }

/-- Put a response on the response channel (60_exceptions.md R89). -/
def State.respond (r : Response) (s : State) : State := { s with responses := s.responses ++ [r] }

/-- End a command with status OK (`return v` of 00_scope.md R11). -/
def State.answer (v : Result) (s : State) : State := s.respond (.ok v)

/-- Taking an error (60_exceptions.md R97): `cnt` and `out` keep their values, nothing is emitted, the response
carries the error with its recorded value, nothing else changes; the block takes the next command at once, so
nothing returns from it (R98). -/
def State.raise (e : CommandError) (s : State) : State := s.respond (.error e)

/-- The reset event (70_reset_and_hazards.md R103): `cnt <- none`, `out <- []`. It has no response (10_state.md
R26). The channels' messages stay: DESIGN CHOICE, log entry 4. -/
def State.resetEvent (s : State) : State := { s with cnt := none, out := [] }

/-- Replace the requests not yet taken. -/
def State.setInbox (q : List Request) (s : State) : State := { s with inbox := q }

/-- The host sends one request: it comes after those already sent (20_memory.md R45). -/
def State.send (r : Request) (s : State) : State := s.setInbox (s.inbox ++ [r])

/-- What the host reads of the output stream when it has read `n` bytes of it already (10_state.md R26). A read
changes nothing (20_memory.md R42). -/
def State.readOutput (n : Nat) (s : State) : List Byte := s.out.drop n

/-- The fatal assertion of 60_exceptions.md R95, made on every check code a command computes before the command
has any effect: the first code outside `[0, 127]` stops the machine. -/
def assertCodes (codes : List Byte) (k : Host.Outcome State Fault Refusal) : Host.Outcome State Fault Refusal :=
  match codes.find? (fun c => decide (Config.codeMax < c.toNat)) with
  | some c => .fault (.errInternal c)
  | none => k

end Sys2Proof.Machine
end

