-- ==== Sys2Proof/Machine/WordCoder.lean ====
section
/-! DEFINITION. The Word Coder (40_word_coder.md): the coverage table, the check-code function and command ENC. -/

namespace Sys2Proof.Machine

/-- The coverage set `S_k`: the data-bit positions locator parity bit `Pk` covers (R60). -/
def coverageSet : Fin 6 → List Nat
  | 0 => [0, 1, 3, 4, 6, 8, 10, 11, 13, 15, 17, 19, 21, 23, 25, 26, 28, 30]
  | 1 => [0, 2, 3, 5, 6, 9, 10, 12, 13, 16, 17, 20, 21, 24, 25, 27, 28, 31]
  | 2 => [1, 2, 3, 7, 8, 9, 10, 14, 15, 16, 17, 22, 23, 24, 25, 29, 30, 31]
  | 3 => [4, 5, 6, 7, 8, 9, 10, 18, 19, 20, 21, 22, 23, 24, 25]
  | 4 => [11, 12, 13, 14, 15, 16, 17, 18, 19, 20, 21, 22, 23, 24, 25]
  | 5 => [26, 27, 28, 29, 30, 31]

/-- The read-only table `MASK[0..5]` (R60, 10_state.md R20). -/
def coverageMask : Fin 6 → Word
  | 0 => 0x56AAAD5B#32
  | 1 => 0x9B33366D#32
  | 2 => 0xE3C3C78E#32
  | 3 => 0x03FC07F0#32
  | 4 => 0x03FFF800#32
  | 5 => 0xFC000000#32

/-- `popcount(v)`, the number of 1 bits (00_scope.md R10). -/
def popcount {n : Nat} (v : BitVec n) : Nat := (List.range n).countP (fun i => v.getLsbD i)

/-- `parity(v) = popcount(v) mod 2`, as a bit (00_scope.md R10). -/
def parity {n : Nat} (v : BitVec n) : Bool := popcount v % 2 == 1

/-- Locator parity bit `Pk = parity(w & MASK[k])` (R61). -/
def locatorParity (w : Word) (k : Fin 6) : Bool := parity (w &&& coverageMask k)

/-- Overall parity bit `P6`: the exclusive or of all 32 data bits together with P0..P5 (R61). -/
def overallParity (w : Word) : Bool :=
  parity w ^^ locatorParity w 0 ^^ locatorParity w 1 ^^ locatorParity w 2 ^^ locatorParity w 3
    ^^ locatorParity w 4 ^^ locatorParity w 5

/-- `CheckCode(w) = zext_8(P6 : P5 : P4 : P3 : P2 : P1 : P0)` (R61, 30_encoding.md R49). -/
def checkCode (w : Word) : Byte :=
  (BitVec.ofBool (overallParity w) ++ BitVec.ofBool (locatorParity w 5) ++ BitVec.ofBool (locatorParity w 4)
    ++ BitVec.ofBool (locatorParity w 3) ++ BitVec.ofBool (locatorParity w 2)
    ++ BitVec.ofBool (locatorParity w 1) ++ BitVec.ofBool (locatorParity w 0)).setWidth 8

/-- The locator field of a check byte, bits 5 to 0, as a number (R68). -/
def locatorField (c : Byte) : Nat := (c.extractLsb 5 0).toNat

/-- `H(i)`, the position of data bit `i` in the classical 1-based codeword of 38 bits: the closed form of R62. -/
def codewordPosition (i : Nat) : Nat :=
  if i = 0 then 3
  else if i ≤ 3 then i + 4
  else if i ≤ 10 then i + 5
  else if i ≤ 25 then i + 6
  else i + 7

/-- ENC (R67): the response is the check code of the word; no state is written and nothing is emitted. -/
def execEnc (w : Word) (s : State) : Host.Outcome State Fault Refusal :=
  assertCodes [checkCode w] (.next (s.answer (.checkByte (checkCode w))))

end Sys2Proof.Machine
end

