-- ==== Sys2Proof/Machine/BlockLayout.lean ====
section
/-! DEFINITION. The Block Layout Engine (41_block_layout.md): the group step, and commands START, GROUP and XFORM. -/

namespace Sys2Proof.Machine

/-- The check code of a group's data word. -/
def groupCode (g : Group) : Byte := checkCode (dataWord g)

/-- The five output bytes of a group: the data bytes unchanged, in input order, then the check byte (20_memory.md
R30, 30_encoding.md R50). -/
def groupBytes (g : Group) : List Byte := groupData g ++ [groupCode g]

/-- The filler: two bytes, both 0x00 (R74). -/
def filler : List Byte := List.replicate Config.fillN Config.fillV

/-- `GroupStep` (R72). The counter is a `Nat` and never wraps, and the filler test is exact equality with 30 (R78);
a counter that has passed 30 is not corrected (R79). -/
def groupStep (c : Nat) (g : Group) : Nat × List Byte :=
  if c + Config.stride = Config.payload then (0, groupBytes g ++ filler)
  else (c + Config.stride, groupBytes g)

/-- Step 2 of the algorithm over a list of groups, in order: the counter after the last group and the bytes
produced (R81, R83). -/
def layout (c : Nat) : List Group → Nat × List Byte
  | [] => (c, [])
  | g :: gs =>
    let first := groupStep c g
    let later := layout first.1 gs
    (later.1, first.2 ++ later.2)

/-- The result of XFORM on a valid image: the counter is local, seeded with `a mod 32` (R81). -/
def transform (image : List Byte) (a : Int) : List Byte := (layout (startOffset a) (groupsOf image)).2

/-- START (R71): seed the counter, or ERR_ADDRESS on a negative address. `out` is not cleared (R77). -/
def execStart (a : Int) (s : State) : Host.Outcome State Fault Refusal :=
  if a < 0 then .next (s.raise (.address a))
  else .next ((s.seed (startOffset a)).answer .nothing)

/-- GROUP (R73): one group step from the counter onto the output stream, or ERR_NOT_STARTED while it is
unseeded. -/
def execGroup (b0 b1 b2 b3 : Byte) (s : State) : Host.Outcome State Fault Refusal :=
  match s.cnt with
  | none => .next (s.raise .notStarted)
  | some c =>
    let g : Group := ⟨b0, b1, b2, b3⟩
    assertCodes [groupCode g]
      (.next (((s.emit (groupStep c g).2).seed (groupStep c g).1).answer .nothing))

/-- XFORM (R81): the length is checked first, then the address (R82); then the whole image is transformed and
returned. `cnt` and `out` are neither read nor written. -/
def execXform (image : List Byte) (a : Int) (s : State) : Host.Outcome State Fault Refusal :=
  if imageLengthOk image = false then .next (s.raise (.inputLength image.length))
  else if a < 0 then .next (s.raise (.address a))
  else assertCodes ((groupsOf image).map groupCode) (.next (s.answer (.bytes (transform image a))))

end Sys2Proof.Machine
end

