-- ==== Sys2Proof/Machine/Dispatch.lean ====
section
/-! DEFINITION. One arm per command (30_encoding.md R51), each a direct call of its meaning. -/

namespace Sys2Proof.Machine

def exec (i : Instr) (s : State) : Host.Outcome State Fault Refusal :=
  match i with
  | .enc w => Sys2Proof.Machine.execEnc w s
  | .start a => Sys2Proof.Machine.execStart a s
  | .group b0 b1 b2 b3 => Sys2Proof.Machine.execGroup b0 b1 b2 b3 s
  | .xform image a => Sys2Proof.Machine.execXform image a s

end Sys2Proof.Machine
end

