-- ==== Sys2Proof/WellFormed.lean ====
section
/-! DEFINITION. Which commands the binary form of 30_encoding.md can carry. The abstract interface takes every
`Instr` (00_scope.md R8); these checks are about the 64-bit address field (R54, R56) and the 32-bit length
field (R56) alone. -/

namespace Sys2Proof

/-- The address fits the 64-bit two's complement field of START and XFORM (R54, R58). -/
def addressFits (a : Int) : Bool := decide (-(2 ^ 63) ≤ a ∧ a < 2 ^ 63)

/-- The image length fits the 32-bit unsigned field `L` of XFORM (R56). -/
def lengthFits (image : List Byte) : Bool := decide (image.length < 2 ^ 32)

/-- The command has a binary form (R53 to R56). -/
def Instr.wellFormed : Instr → Bool
  | .enc _ => true
  | .start a => addressFits a
  | .group _ _ _ _ => true
  | .xform image a => addressFits a && lengthFits image

end Sys2Proof
end

