-- ==== Sys2Proof/Decode.lean ====
section
/-! DEFINITION. The binary command form (30_encoding.md R52 to R58): the decoder, total on any byte string, and
after it the encoder. The opcode values and the layout are the spec's own decision (92_eei_decisions.md D3,
D4); no real device is claimed to use them. -/

namespace Sys2Proof

/-! ## Little-endian fields -/

/-- The number a multi-byte field holds, least significant byte first (R52). -/
def leNat : List Byte → Nat
  | [] => 0
  | b :: bs => b.toNat + 256 * leNat bs

/-- The low `n` bytes of `v`, least significant byte first (R52). -/
def leBytes : Nat → Nat → List Byte
  | 0, _ => []
  | n + 1, v => BitVec.ofNat 8 v :: leBytes n (v / 256)

/-- The 64-bit two's complement reading of an address field (R54, R58; `sext_64` of 00_scope.md R11). -/
def sext64 (n : Nat) : Int := (BitVec.ofNat 64 n).toInt

/-- The first `n` bytes of a byte string as a field, with the rest; none where the string ends before. -/
def takeField (n : Nat) (bs : List Byte) : Option (List Byte × List Byte) :=
  if n ≤ bs.length then some (bs.take n, bs.drop n) else none

/-! ## Opcodes (R57) -/

/-- Opcode of ENC (R53). -/
abbrev opEnc : Byte := 0x01#8
/-- Opcode of START (R54). -/
abbrev opStart : Byte := 0x02#8
/-- Opcode of GROUP (R55). -/
abbrev opGroup : Byte := 0x03#8
/-- Opcode of XFORM (R56). -/
abbrev opXform : Byte := 0x04#8

/-- The length column of R57's opcode map, from the bytes at hand: fixed by the opcode, and for XFORM also by the
length field in bytes 9 to 12. -/
def commandLength : List Byte → Nat
  | [] => 0
  | op :: tl =>
    if op = opEnc then 5
    else if op = opStart then 9
    else if op = opGroup then 5
    else if op = opXform then 13 + leNat ((tl.drop 8).take 4)
    else 1

/-! ## Decoder -/

/-- What the decoder makes of a byte string: the four cases of R57. -/
inductive Decoded where
  /-- R57 case 1: the string is empty, nothing is decoded. -/
  | waiting
  /-- R57 case 2: a reserved opcode; that one byte is consumed and `rest` is left. -/
  | reserved (op : Byte) (rest : List Byte)
  /-- R57 case 3: a defined opcode whose command is longer than the string; all bytes are consumed. -/
  | truncated (op : Byte)
  /-- R57 case 4: a whole command, and the bytes after it. -/
  | command (i : Instr) (rest : List Byte)
  deriving DecidableEq, Repr

/-- Operand of ENC: a 32-bit unsigned field, not sign-extended (R53, R58). -/
def decodeEnc (tl : List Byte) : Option (Instr × List Byte) :=
  match takeField 4 tl with
  | some (w, rest) => some (.enc (BitVec.ofNat 32 (leNat w)), rest)
  | none => none

/-- Operand of START: a 64-bit two's complement field (R54, R58). -/
def decodeStart (tl : List Byte) : Option (Instr × List Byte) :=
  match takeField 8 tl with
  | some (a, rest) => some (.start (sext64 (leNat a)), rest)
  | none => none

/-- Operands of GROUP: `b0` at byte 1 of the command, `b3` at byte 4 (R55). -/
def decodeGroup (tl : List Byte) : Option (Instr × List Byte) :=
  match tl with
  | b0 :: b1 :: b2 :: b3 :: rest => some (.group b0 b1 b2 b3, rest)
  | _ => none

/-- Operands of XFORM: `a`, then the unsigned byte count `L`, then `L` data bytes. Any `L` is decoded; whether the
length is legal is for the command to say (R56). -/
def decodeXform (tl : List Byte) : Option (Instr × List Byte) :=
  match takeField 8 tl with
  | none => none
  | some (a, afterA) =>
    match takeField 4 afterA with
    | none => none
    | some (l, afterL) =>
      match takeField (leNat l) afterL with
      | none => none
      | some (image, rest) => some (.xform image (sext64 (leNat a)), rest)

/-- A command whose operands are all there, or a truncated one (R57 cases 3 and 4). -/
def finishCommand (op : Byte) : Option (Instr × List Byte) → Decoded
  | some (i, rest) => .command i rest
  | none => .truncated op

/-- The decoder of R57. -/
def decode : List Byte → Decoded
  | [] => .waiting
  | op :: tl =>
    if op = opEnc then finishCommand op (decodeEnc tl)
    else if op = opStart then finishCommand op (decodeStart tl)
    else if op = opGroup then finishCommand op (decodeGroup tl)
    else if op = opXform then finishCommand op (decodeXform tl)
    else .reserved op tl

/-! ## The opcode table's words -/

/-- The byte string of an instruction whose bits are `w`, numbered as R52 numbers them, with every bit the
command has above `nbits` zero. -/
def tableBytes (nbits w : Nat) : List Byte :=
  let given := leBytes ((nbits + 7) / 8) (w % 2 ^ nbits)
  given ++ List.replicate (commandLength given - given.length) 0x00#8

/-- The instruction the decoder reads from such a word; none where it refuses. -/
def decodeTableWord (nbits w : Nat) : Option Instr :=
  match decode (tableBytes nbits w) with
  | .command i _ => some i
  | _ => none

/-! ## Encoder -/

/-- The opcode byte of a command (R57). -/
def opcodeOf : Instr → Byte
  | .enc _ => opEnc
  | .start _ => opStart
  | .group _ _ _ _ => opGroup
  | .xform _ _ => opXform

/-- The 64-bit two's complement address field (R54, R56). -/
def addressField (a : Int) : List Byte := leBytes 8 (BitVec.ofInt 64 a).toNat

/-- The bytes after the opcode (R53 to R56). -/
def operandBytes : Instr → List Byte
  | .enc w => leBytes 4 w.toNat
  | .start a => addressField a
  | .group b0 b1 b2 b3 => [b0, b1, b2, b3]
  | .xform image a => addressField a ++ (leBytes 4 image.length ++ image)

/-- The binary form of a command (R52). It carries the command faithfully exactly when the command is well
formed; an address or a length outside its field loses its high bits. -/
def encode (i : Instr) : List Byte := opcodeOf i :: operandBytes i

end Sys2Proof
end

