-- ==== Sys2Proof/Machine/Fetch.lean ====
section
/-! DEFINITION. Taking the next request off the host's channels (10_state.md R14). The block fetches no instructions
from a memory (R16): its commands come from the host, one at a time, in the order sent (20_memory.md R45). -/

namespace Sys2Proof.Machine

/-- The next thing the block does, with the state in which the request's bytes are consumed. -/
inductive Fetched where
  /-- Nothing to decode: the decoder waits (30_encoding.md R57 case 1). -/
  | idle (s : State)
  /-- A reserved or truncated binary command (R57 cases 2 and 3). -/
  | illegal (op : Byte) (s : State)
  /-- A command to execute (R57 case 4, or a typed command). -/
  | run (i : Instr) (s : State)
  /-- A reset event (70_reset_and_hazards.md R103). -/
  | resetNow (s : State)
  deriving DecidableEq, Repr

/-- The requests left when `rest` is what a byte string holds after the bytes just consumed. -/
def requeue (rest : List Byte) (q : List Request) : List Request :=
  match rest with
  | [] => q
  | _ :: _ => .bytes rest :: q

/-- Decode the front of a byte string that headed the inbox; `q` is the inbox behind it (30_encoding.md R57). -/
def fetchBytes (bs : List Byte) (q : List Request) (s : State) : Fetched :=
  match decode bs with
  | .waiting => .idle (s.setInbox q)
  | .reserved op rest => .illegal op (s.setInbox (requeue rest q))
  | .truncated op => .illegal op (s.setInbox q)
  | .command i rest => .run i (s.setInbox (requeue rest q))

/-- Take the oldest request. -/
def fetch (s : State) : Fetched :=
  match s.inbox with
  | [] => .idle s
  | .bytes bs :: q => fetchBytes bs q s
  | .command i :: q => .run i (s.setInbox q)
  | .reset :: q => .resetNow (s.setInbox q)

/-- The state with the byte string `bs` as its oldest request. -/
def State.placeBytes (bs : List Byte) (s : State) : State := s.setInbox (.bytes bs :: s.inbox)

end Sys2Proof.Machine
end

