-- ==== Sys2Proof/Machine/Step.lean ====
section
/-! DEFINITION. One step: take the oldest request and answer it (10_state.md R14, 00_scope.md R12). -/

namespace Sys2Proof.Machine

/-- One atomic step (R12). With nothing to decode the machine waits (30_encoding.md R57 case 1); a reserved or
truncated binary command is answered with ERR_ILLEGAL_OP and is not executed (60_exceptions.md R94, R96); a
reset event acts between commands (70_reset_and_hazards.md R106). -/
def step (s : State) : Host.Outcome State Fault Refusal :=
  match fetch s with
  | .idle t => .next t
  | .illegal op t => .next (t.raise (.illegalOp op))
  | .run i t => exec i t
  | .resetNow t => .next t.resetEvent

/-- `s` with the instruction of a table word as its oldest request, so that the next step runs it. -/
def State.withFetchWord (s : State) (nbits w : Nat) : State := s.placeBytes (tableBytes nbits w)

end Sys2Proof.Machine
end

