-- ==== Sys2Proof/Machine/Assembler.lean ====
section
/-! DEFINITION. The textual form of a command (30_encoding.md R59), over the characters of one line. No semantics
depends on it (92_eei_decisions.md D22). What R59 leaves open here is in log entry 10. -/

namespace Sys2Proof.Machine

/-- The pieces a line falls into. -/
inductive Token where
  /-- A mnemonic or a number. -/
  | word (cs : List Char)
  | comma
  | openBracket
  | closeBracket
  deriving DecidableEq, Repr

/-! ## Mnemonics and the source's names (R59) -/

/-- `ENC`. -/
def mnemonicEnc : List Char := ['E', 'N', 'C']
/-- `START`. -/
def mnemonicStart : List Char := ['S', 'T', 'A', 'R', 'T']
/-- `GROUP`. -/
def mnemonicGroup : List Char := ['G', 'R', 'O', 'U', 'P']
/-- `XFORM`. -/
def mnemonicXform : List Char := ['X', 'F', 'O', 'R', 'M']
/-- `compute_check_code`, another name of ENC. -/
def nameComputeCheckCode : List Char :=
  ['c', 'o', 'm', 'p', 'u', 't', 'e', '_', 'c', 'h', 'e', 'c', 'k', '_', 'c', 'o', 'd', 'e']
/-- `encode_word`, another name of ENC. -/
def nameEncodeWord : List Char := ['e', 'n', 'c', 'o', 'd', 'e', '_', 'w', 'o', 'r', 'd']
/-- `transform_image`, another name of XFORM. -/
def nameTransformImage : List Char :=
  ['t', 'r', 'a', 'n', 's', 'f', 'o', 'r', 'm', '_', 'i', 'm', 'a', 'g', 'e']

/-! ## Numbers: decimal, or with a `0x` prefix (R59) -/

/-- The value of a digit below `base`; hexadecimal letters in either case. -/
def digitValue (base : Nat) (c : Char) : Option Nat :=
  let n := c.toNat
  let v := if 48 ≤ n ∧ n ≤ 57 then n - 48
    else if 65 ≤ n ∧ n ≤ 70 then n - 55
    else if 97 ≤ n ∧ n ≤ 102 then n - 87
    else base
  if v < base then some v else none

/-- Digits most significant first, after the value `acc` of those before them. -/
def digitsValue (base : Nat) : Nat → List Char → Option Nat
  | acc, [] => some acc
  | acc, c :: cs =>
    match digitValue base c with
    | some d => digitsValue base (acc * base + d) cs
    | none => none

/-- An unsigned number with at least one digit. -/
def numberOf (cs : List Char) : Option Nat :=
  if cs.take 2 = ['0', 'x'] then
    (if cs.drop 2 = [] then none else digitsValue 16 0 (cs.drop 2))
  else if cs = [] then none
  else digitsValue 10 0 cs

/-- An address: a number, with a minus sign before it for a negative one. -/
def addressOf (cs : List Char) : Option Int :=
  match cs with
  | [] => none
  | c :: ds =>
    if c = '-' then (numberOf ds).map (fun n => -(n : Int)) else (numberOf (c :: ds)).map (fun n => (n : Int))

/-- A Byte operand. -/
def byteOf (cs : List Char) : Option Byte :=
  match numberOf cs with
  | some n => if n < 2 ^ 8 then some (BitVec.ofNat 8 n) else none
  | none => none

/-- A Word operand. -/
def wordOf (cs : List Char) : Option Word :=
  match numberOf cs with
  | some n => if n < 2 ^ 32 then some (BitVec.ofNat 32 n) else none
  | none => none

/-! ## Lines -/

/-- Spaces and tabs. -/
def isBlank (c : Char) : Bool := c == ' ' || c == '\t'

/-- End the word being read, if there is one. -/
def flushWord (cur : List Char) (ts : List Token) : List Token :=
  match cur with
  | [] => ts
  | _ :: _ => .word cur :: ts

/-- Cut a line into tokens; `cur` holds the characters of the word being read. -/
def tokens : List Char → List Char → List Token
  | cur, [] => flushWord cur []
  | cur, c :: cs =>
    if c = ',' then flushWord cur (.comma :: tokens [] cs)
    else if c = '[' then flushWord cur (.openBracket :: tokens [] cs)
    else if c = ']' then flushWord cur (.closeBracket :: tokens [] cs)
    else if isBlank c then flushWord cur (tokens [] cs)
    else tokens (cur ++ [c]) cs

/-- The operand of ENC. -/
def parseEnc : List Token → Option Instr
  | [.word w] => (wordOf w).map Instr.enc
  | _ => none

/-- The operand of START. -/
def parseStart : List Token → Option Instr
  | [.word a] => (addressOf a).map Instr.start
  | _ => none

/-- The operands of GROUP. -/
def parseGroup : List Token → Option Instr
  | [.word b0, .comma, .word b1, .comma, .word b2, .comma, .word b3] =>
    match byteOf b0, byteOf b1, byteOf b2, byteOf b3 with
    | some v0, some v1, some v2, some v3 => some (.group v0 v1 v2 v3)
    | _, _, _, _ => none
  | _ => none

/-- The bytes of an image after the first, with the closing bracket. -/
def parseMoreBytes : List Token → Option (List Byte)
  | [.closeBracket] => some []
  | .comma :: .word b :: ts =>
    match byteOf b, parseMoreBytes ts with
    | some v, some vs => some (v :: vs)
    | _, _ => none
  | _ => none

/-- The bytes of an image after the opening bracket. -/
def parseBytes : List Token → Option (List Byte)
  | [.closeBracket] => some []
  | .word b :: ts =>
    match byteOf b, parseMoreBytes ts with
    | some v, some vs => some (v :: vs)
    | _, _ => none
  | _ => none

/-- The operands of XFORM, the address first. -/
def parseXform : List Token → Option Instr
  | .word a :: .comma :: .openBracket :: ts =>
    match addressOf a, parseBytes ts with
    | some v, some image => some (.xform image v)
    | _, _ => none
  | _ => none

/-- A mnemonic, or one of the source's names, with its operands. -/
def parseCommand : List Token → Option Instr
  | .word m :: ts =>
    if m = mnemonicEnc ∨ m = nameComputeCheckCode ∨ m = nameEncodeWord then parseEnc ts
    else if m = mnemonicStart then parseStart ts
    else if m = mnemonicGroup then parseGroup ts
    else if m = mnemonicXform ∨ m = nameTransformImage then parseXform ts
    else none
  | _ => none

/-- The text before the first `;`; from it onward a line is a comment (R59). -/
def withoutComment (line : List Char) : List Char := line.takeWhile (fun c => c != ';')

/-- The command a line of text stands for; none where the line is not of the form of R59. -/
def assemble (line : List Char) : Option Instr := parseCommand (tokens [] (withoutComment line))

/-! ## Writing a command as text -/

/-- A hexadecimal digit. -/
def hexDigit (d : Nat) : Char := if d < 10 then Char.ofNat (48 + d) else Char.ofNat (55 + d)

/-- The low `n` hexadecimal digits of `v`, most significant first. -/
def hexDigits : Nat → Nat → List Char
  | 0, _ => []
  | n + 1, v => hexDigits n (v / 16) ++ [hexDigit (v % 16)]

/-- A number of `n` hexadecimal digits with its `0x` prefix. -/
def hexText (n v : Nat) : List Char := '0' :: 'x' :: hexDigits n v

/-- An address of up to 64 bits, with a minus sign if it is negative. -/
def addressText (a : Int) : List Char := if a < 0 then '-' :: hexText 16 a.natAbs else hexText 16 a.natAbs

/-- Bytes separated by commas. -/
def bytesText : List Byte → List Char
  | [] => []
  | [b] => hexText 2 b.toNat
  | b :: bs => hexText 2 b.toNat ++ [',', ' '] ++ bytesText bs

/-- The textual form of a command (R59). -/
def render : Instr → List Char
  | .enc w => mnemonicEnc ++ ' ' :: hexText 8 w.toNat
  | .start a => mnemonicStart ++ ' ' :: addressText a
  | .group b0 b1 b2 b3 => mnemonicGroup ++ ' ' :: bytesText [b0, b1, b2, b3]
  | .xform image a => mnemonicXform ++ ' ' :: (addressText a ++ [',', ' ', '['] ++ bytesText image ++ [']'])

end Sys2Proof.Machine
end

