-- ==== Sys2Proof/Machine/Flags.lean ====
section
/-! DEFINITION. The block has no status flags, condition codes or predicates (10_state.md R22); what a command reports
is the status of its response. This file holds the status codes of 60_exceptions.md R90. -/

namespace Sys2Proof.Machine

/-- The status code of a response (60_exceptions.md R90): 0 OK, 1 ERR_INPUT_LENGTH, 2 ERR_ADDRESS,
3 ERR_NOT_STARTED, 4 ERR_ILLEGAL_OP. -/
def Response.code : Response → Nat
  | .ok _ => 0
  | .error (.inputLength _) => 1
  | .error (.address _) => 2
  | .error .notStarted => 3
  | .error (.illegalOp _) => 4

/-- The status code of a fault (60_exceptions.md R90): 5 ERR_INTERNAL. -/
def Fault.code : Fault → Nat
  | .errInternal _ => 5

/-- The recorded value of an error, as a number (60_exceptions.md R90): the length, the address, nothing, or the
opcode byte. -/
def CommandError.recorded : CommandError → Option Int
  | .inputLength len => some len
  | .address a => some a
  | .notStarted => none
  | .illegalOp op => some op.toNat

/-- The response reports success. -/
def Response.isOk : Response → Bool
  | .ok _ => true
  | .error _ => false

end Sys2Proof.Machine
end

