-- ==== Sys2Proof/Machine/Placement.lean ====
section
/-! DEFINITION. Physical placement of the output (20_memory.md R38 to R40). The block stores nothing at these
addresses (10_state.md R25): this is where each output byte is meant to go. -/

namespace Sys2Proof.Machine

/-- The physical address output byte `j` is intended for, `a` being the START or XFORM address (R38). -/
def placeAt (a : Int) (j : Nat) : Int := a + j

/-- The offset of a physical address in its 32-byte block (R39). -/
def blockOffset (p : Int) : Nat := (p % (Config.block : Int)).toNat

end Sys2Proof.Machine
end

