-- ==== Sys2Proof/Safety.lean ====
section
/-! DEFINITION. The terms claims about the block are stated in: runs of commands, aligned offsets and the output
layout they lead to, codewords and their errors, and the invariant of the machine. -/

namespace Sys2Proof.Machine

/-! ## Runs of commands -/

/-- Commands executed in order, stopping at the first stop (20_memory.md R45). -/
def execAll : List Instr → State → Host.Outcome State Fault Refusal
  | [], s => .next s
  | i :: is, s =>
    match exec i s with
    | .next t => execAll is t
    | .fault f => .fault f
    | .refused r => .refused r

/-- The GROUP command of a group. -/
def groupCommand (g : Group) : Instr := .group g.b0 g.b1 g.b2 g.b3

/-- Group `g` of an image by its indices, `s[4g] .. s[4g+3]` (41_block_layout.md R80). -/
def groupAt (image : List Byte) (g : Nat) : Group :=
  ⟨image.getD (4 * g) 0, image.getD (4 * g + 1) 0, image.getD (4 * g + 2) 0, image.getD (4 * g + 3) 0⟩

/-- Streaming an image: `START a`, then `GROUP s[4g], s[4g+1], s[4g+2], s[4g+3]` for each group in order (R80). -/
def streamCommands (image : List Byte) (a : Int) : List Instr :=
  .start a :: (List.range (image.length / 4)).map (fun g => groupCommand (groupAt image g))

/-- The command neither reads nor writes the streaming state: ENC and XFORM (40_word_coder.md R67,
41_block_layout.md R84). -/
def isPure : Instr → Bool
  | .enc _ => true
  | .start _ => false
  | .group _ _ _ _ => false
  | .xform _ _ => true

/-! ## Offsets and the layout of the output -/

/-- `ALIGNED`, the offsets from which the counter reaches exactly 30 (41_block_layout.md R75). -/
def alignedOffsets : List Nat := [0, 5, 10, 15, 20, 25]

/-- `F(g)`, the filler pairs emitted before group `g` from offset `r` (R86); at `g = n` it is the number `f` of filler
pairs of the whole output (R85). -/
def fillersBefore (r g : Nat) : Nat := if r ∈ alignedOffsets then (g + r / 5) / 6 else 0

/-- `p(g)`, the output index of group `g` from offset `r` (R86). -/
def groupIndex (r g : Nat) : Nat := 5 * g + 2 * fillersBefore r g

/-! ## Codewords and their errors -/

/-- A received codeword: 32 data bits and a check byte. -/
structure Codeword where
  data : Word
  check : Byte
  deriving DecidableEq, Repr

/-- A bit of the 39-bit codeword: a data bit, a locator bit `Pk`, or `P6` (00_scope.md R7, `CODE_N`). -/
inductive CodewordBit where
  | data (i : Fin 32)
  | locator (k : Fin 6)
  | overall
  deriving DecidableEq, Repr

/-- The codeword of a data word. -/
def codewordOf (w : Word) : Codeword := ⟨w, checkCode w⟩

/-- One bit flipped. -/
def Codeword.flip (b : CodewordBit) (x : Codeword) : Codeword :=
  match b with
  | .data i => ⟨x.data ^^^ (1#32 <<< i.val), x.check⟩
  | .locator k => ⟨x.data, x.check ^^^ (1#8 <<< k.val)⟩
  | .overall => ⟨x.data, x.check ^^^ (1#8 <<< 6)⟩

/-- The difference of the locator bits recomputed from the data and those received (40_word_coder.md R68). -/
def Codeword.locatorDifference (x : Codeword) : Nat := locatorField (checkCode x.data ^^^ x.check)

/-- The parity of all 39 bits (40_word_coder.md R64). -/
def Codeword.parityBit (x : Codeword) : Bool := parity x.data ^^ parity x.check

/-- What the locator difference is when this one bit is flipped (R68). -/
def CodewordBit.position : CodewordBit → Nat
  | .data i => codewordPosition i.val
  | .locator k => 2 ^ k.val
  | .overall => 0

/-! ## The invariant -/

/-- A concatenation of whole group outputs, each with or without the filler after it: what the output may hold at any
time (30_encoding.md R50, 70_reset_and_hazards.md R106). -/
inductive GroupStream : List Byte → Prop where
  | empty : GroupStream []
  | group (bs : List Byte) (g : Group) : GroupStream bs → GroupStream (bs ++ groupBytes g)
  | filledGroup (bs : List Byte) (g : Group) : GroupStream bs → GroupStream (bs ++ (groupBytes g ++ [0x00#8, 0x00#8]))

/-- What a response may carry: a check byte is the check code of some word, a transformed image is made of whole
groups, and an error's recorded value is one that raises it (60_exceptions.md R89, R90). -/
def Response.Legal : Response → Prop
  | .ok (.checkByte c) => ∃ w, c = checkCode w
  | .ok (.bytes bs) => bs ≠ [] ∧ GroupStream bs
  | .ok .nothing => True
  | .error (.inputLength n) => n = 0 ∨ n % 4 ≠ 0
  | .error (.address a) => a < 0
  | .error .notStarted => True
  | .error (.illegalOp _) => True

/-- The invariant every step keeps. -/
def State.Inv (s : State) : Prop := GroupStream s.out ∧ ∀ r ∈ s.responses, r.Legal

end Sys2Proof.Machine
end

