-- ==== Sys2Proof/Certificates/Slice0/Obligations.lean ====
section
/-! DEFINITION. The statements for the provers, from the numbered rules of spec/. A next state is written out field by
field, so that each statement of a result is also its frame: a field not named after `with` is unchanged. -/

open Sys2Proof Sys2Proof.Machine

/-! ## Reset, requests and decoding -/

/-- R105 with R103: the power-on state and the state a reset event leaves agree on the block's state, the counter
unseeded and the output stream empty. -/
def Obligations.PowerOnIsTheResetState : Prop :=
  State.reset.cnt = none ∧ State.reset.out = [] ∧
    ∀ s : State, s.resetEvent.cnt = State.reset.cnt ∧ s.resetEvent.out = State.reset.out

/-- R103: a reset event unseeds the counter and empties the stream; ENC and XFORM answer the same from any two
states; and while the counter is unseeded, GROUP is answered with ERR_NOT_STARTED, before and after any commands
among which no START with a non-negative address stands. -/
def Obligations.AfterResetGroupNeedsStart : Prop :=
  (∀ (s : State) (q : List Request), s.inbox = .reset :: q →
    ∃ t, step s = .next t ∧ t.cnt = none ∧ t.out = []) ∧
  (∀ (i : Instr), isPure i = true → ∃ r, ∀ s : State, exec i s = .next { s with responses := s.responses ++ [r] }) ∧
  (∀ (is : List Instr) (s : State), s.cnt = none → (∀ a, Instr.start a ∈ is → a < 0) →
    ∃ t, execAll is s = .next t ∧ t.cnt = none ∧
      ∀ b0 b1 b2 b3, exec (.group b0 b1 b2 b3) t =
        .next { t with responses := t.responses ++ [.error .notStarted] })

/-- What the model does with its channels on a reset event (log entry 4, the model's choice): the requests behind it
and the responses given stay. -/
def Obligations.ResetEventKeepsChannels : Prop :=
  ∀ (s : State) (q : List Request), s.inbox = .reset :: q →
    step s = .next { s with cnt := none, out := [], inbox := q }

/-- A step runs the decoded command: of a byte string, after consuming its bytes and leaving the rest at the front of
the inbox; of a typed command, after taking it. A reserved or truncated string is answered without running a
command, and what is left of it stays at the front. How requests are held is the model's choice (log entries 1
and 2). -/
def Obligations.StepRunsTheDecodedCommand : Prop :=
  (∀ (s : State) (bs rest : List Byte) (q : List Request) (i : Instr),
    s.inbox = .bytes bs :: q → decode bs = .command i rest →
    step s = exec i { s with inbox := if rest = [] then q else .bytes rest :: q }) ∧
  (∀ (s : State) (q : List Request) (i : Instr),
    s.inbox = .command i :: q → step s = exec i { s with inbox := q }) ∧
  (∀ (s : State) (bs rest : List Byte) (q : List Request) (op : Byte),
    s.inbox = .bytes bs :: q → decode bs = .reserved op rest →
    step s = .next { s with
      inbox := if rest = [] then q else .bytes rest :: q,
      responses := s.responses ++ [.error (.illegalOp op)] }) ∧
  (∀ (s : State) (bs : List Byte) (q : List Request) (op : Byte),
    s.inbox = .bytes bs :: q → decode bs = .truncated op →
    step s = .next { s with inbox := q, responses := s.responses ++ [.error (.illegalOp op)] })

/-- With nothing to decode the machine waits: an empty inbox leaves the whole state as it is, and an empty byte string
is dropped. That waiting is a next state is the model's choice (log entry 7). -/
def Obligations.NothingToDecodeWaits : Prop :=
  (∀ s : State, s.inbox = [] → step s = .next s) ∧
  (∀ (s : State) (q : List Request), s.inbox = .bytes [] :: q → step s = .next { s with inbox := q })

/-- R57 and R94: the decoder's four cases on any byte string, with the bytes consumed and left; a reserved or truncated
command is answered with ERR_ILLEGAL_OP and the opcode byte and the block's state does not change, a whole command
is executed on it; and the length column of the opcode map. -/
def Obligations.DecoderIsTotalOnByteStrings : Prop :=
  decode [] = .waiting ∧
  (∀ (op : Byte) (tl : List Byte), (op = 0x00#8 ∨ 5 ≤ op.toNat) →
    commandLength (op :: tl) = 1 ∧ decode (op :: tl) = .reserved op tl) ∧
  (∀ (op : Byte) (tl : List Byte), (1 ≤ op.toNat ∧ op.toNat ≤ 4) →
    (op :: tl).length < commandLength (op :: tl) → decode (op :: tl) = .truncated op) ∧
  (∀ (op : Byte) (tl : List Byte), (1 ≤ op.toNat ∧ op.toNat ≤ 4) →
    commandLength (op :: tl) ≤ (op :: tl).length →
    ∃ i, opcodeOf i = op ∧ decode (op :: tl) = .command i ((op :: tl).drop (commandLength (op :: tl)))) ∧
  (∀ (s : State) (bs : List Byte) (q : List Request), s.inbox = .bytes bs :: q →
    (∀ op rest, (decode bs = .reserved op rest ∨ decode bs = .truncated op) →
      ∃ t, step s = .next t ∧ t.cnt = s.cnt ∧ t.out = s.out ∧
        t.responses = s.responses ++ [.error (.illegalOp op)]) ∧
    (∀ i rest, decode bs = .command i rest →
      ∃ u, step s = exec i u ∧ u.cnt = s.cnt ∧ u.out = s.out ∧ u.responses = s.responses)) ∧
  (∀ op : Byte, Response.code (.error (.illegalOp op)) = 4 ∧
    CommandError.recorded (.illegalOp op) = some (op.toNat : Int)) ∧
  (∀ tl : List Byte, commandLength (0x01#8 :: tl) = 5 ∧ commandLength (0x02#8 :: tl) = 9 ∧
    commandLength (0x03#8 :: tl) = 5) ∧
  (∀ (a : List Byte) (l0 l1 l2 l3 : Byte) (tl : List Byte), a.length = 8 →
    commandLength (0x04#8 :: (a ++ l0 :: l1 :: l2 :: l3 :: tl)) = 13 + (l3 ++ l2 ++ l1 ++ l0).toNat)

/-- Decoding the binary form of a well-formed command, whatever bytes come after it, gives the command back and
leaves those bytes. -/
def Obligations.DecodeOfEncode : Prop :=
  ∀ (i : Instr) (rest : List Byte), i.wellFormed = true → decode (encode i ++ rest) = .command i rest

/-- Each binary command has one meaning: what decodes is well formed, and its bytes are its binary form. -/
def Obligations.EncodeOfDecoded : Prop :=
  ∀ (bs rest : List Byte) (i : Instr), decode bs = .command i rest → i.wellFormed = true ∧ bs = encode i ++ rest

/-- The binary commands of 95_test_vectors.md section 2.8 decode as that table says. -/
def Obligations.DecodesTheSpecsWords : Prop :=
  decode [0x01#8, 0xEF#8, 0xBE#8, 0xAD#8, 0xDE#8] = .command (.enc 0xDEADBEEF#32) [] ∧
  decode [0x02#8, 0x19#8, 0x10#8, 0x00#8, 0x00#8, 0x00#8, 0x00#8, 0x00#8, 0x00#8] = .command (.start 0x1019) [] ∧
  decode [0x02#8, 0xFF#8, 0xFF#8, 0xFF#8, 0xFF#8, 0xFF#8, 0xFF#8, 0xFF#8, 0xFF#8] = .command (.start (-1)) [] ∧
  decode [0x03#8, 0xEF#8, 0xBE#8, 0xAD#8, 0xDE#8] = .command (.group 0xEF#8 0xBE#8 0xAD#8 0xDE#8) [] ∧
  decode [0x04#8, 0x00#8, 0x00#8, 0x00#8, 0x00#8, 0x00#8, 0x00#8, 0x00#8, 0x00#8, 0x04#8, 0x00#8, 0x00#8, 0x00#8,
    0x00#8, 0x00#8, 0x00#8, 0x00#8] = .command (.xform [0x00#8, 0x00#8, 0x00#8, 0x00#8] 0) [] ∧
  decode [0x00#8] = .reserved 0x00#8 [] ∧ decode [0x07#8] = .reserved 0x07#8 [] ∧
  decode [0xFF#8] = .reserved 0xFF#8 [] ∧ decode [0x01#8, 0xEF#8, 0xBE#8] = .truncated 0x01#8

/-- R53 and R55, with the address and length fields of START and XFORM: how the operands are assembled from the command's bytes, for each command. -/
def Obligations.OperandAssembly : Prop :=
  (∀ w0 w1 w2 w3 : Byte, decode [0x01#8, w0, w1, w2, w3] = .command (.enc (w3 ++ w2 ++ w1 ++ w0)) []) ∧
  (∀ a0 a1 a2 a3 a4 a5 a6 a7 : Byte,
    decode [0x02#8, a0, a1, a2, a3, a4, a5, a6, a7] =
      .command (.start (a7 ++ a6 ++ a5 ++ a4 ++ a3 ++ a2 ++ a1 ++ a0 : BitVec 64).toInt) []) ∧
  (∀ a : BitVec 64, 0 ≤ a.toInt → startOffset a.toInt = (a.extractLsb 4 0).toNat) ∧
  (∀ b0 b1 b2 b3 : Byte, decode [0x03#8, b0, b1, b2, b3] = .command (.group b0 b1 b2 b3) [] ∧
    decode [0x01#8, b0, b1, b2, b3] = .command (.enc (dataWord ⟨b0, b1, b2, b3⟩)) []) ∧
  (∀ (a0 a1 a2 a3 a4 a5 a6 a7 l0 l1 l2 l3 : Byte) (image : List Byte),
    image.length = (l3 ++ l2 ++ l1 ++ l0).toNat →
    decode (0x04#8 :: a0 :: a1 :: a2 :: a3 :: a4 :: a5 :: a6 :: a7 :: l0 :: l1 :: l2 :: l3 :: image) =
      .command (.xform image (a7 ++ a6 ++ a5 ++ a4 ++ a3 ++ a2 ++ a1 ++ a0 : BitVec 64).toInt) [])

/-- Requests are taken in the order sent, one at a time (20_memory.md section 5): a request sent behind others changes
nothing about the step that takes the oldest. Beyond that order this is the model's choice, where the spec is silent:
how requests are held (log entry 1), that a truncated string is answered even if another byte string follows it (log
entry 2), that a request behind a reset event survives it (log entry 4), and that an empty byte string is dropped
(log entry 7). -/
def Obligations.LaterRequestsDoNotDisturbAStep : Prop :=
  ∀ (s t : State) (r : Request), s.inbox ≠ [] → step s = .next t → step (s.send r) = .next (t.send r)

/-! ## Textual form -/

/-- R59: the forms of its examples, the source's names as other names of ENC and XFORM before any operands, and
comments, in every line. -/
def Obligations.TextualForm : Prop :=
  assemble ['E', 'N', 'C', ' ', ' ', ' ', '0', 'x', 'D', 'E', 'A', 'D', 'B', 'E', 'E', 'F'] =
    some (.enc 0xDEADBEEF#32) ∧
  assemble ['S', 'T', 'A', 'R', 'T', ' ', '0', 'x', '1', '0', '1', '9'] = some (.start 0x1019) ∧
  assemble ['G', 'R', 'O', 'U', 'P', ' ', '0', 'x', 'E', 'F', ',', ' ', '0', 'x', 'B', 'E', ',', ' ', '0', 'x', 'A', 'D',
    ',', ' ', '0', 'x', 'D', 'E'] = some (.group 0xEF#8 0xBE#8 0xAD#8 0xDE#8) ∧
  assemble ['X', 'F', 'O', 'R', 'M', ' ', '0', ',', ' ', '[', '0', 'x', '0', '0', ',', ' ', '0', 'x', '0', '0', ',', ' ',
    '0', 'x', '0', '0', ',', ' ', '0', 'x', '0', '0', ']'] = some (.xform [0x00#8, 0x00#8, 0x00#8, 0x00#8] 0) ∧
  assemble ['S', 'T', 'A', 'R', 'T', ' ', '2', '5'] = some (.start 25) ∧
  (∀ operands : List Char,
    assemble (nameComputeCheckCode ++ ' ' :: operands) = assemble (mnemonicEnc ++ ' ' :: operands) ∧
    assemble (nameEncodeWord ++ ' ' :: operands) = assemble (mnemonicEnc ++ ' ' :: operands) ∧
    assemble (nameTransformImage ++ ' ' :: operands) = assemble (mnemonicXform ++ ' ' :: operands)) ∧
  (∀ line comment : List Char, assemble (line ++ ';' :: comment) = assemble line)

/-- Writing a well-formed command as text and reading the text gives the command back (the spelling `render` chooses
is the model's, log entry 10). -/
def Obligations.AssembleOfRender : Prop :=
  ∀ i : Instr, i.wellFormed = true → assemble (render i) = some i

/-! ## Word Coder -/

/-- R48, R28 and R32: the data word of four bytes, in both forms of R48 and by byte lane, every word is the data word of
some four bytes, and byte order matters to the check byte. -/
def Obligations.DataWordIsLittleEndian : Prop :=
  (∀ b0 b1 b2 b3 : Byte,
    dataWord ⟨b0, b1, b2, b3⟩ = (b3 ++ b2 ++ b1 ++ b0 : BitVec 32) ∧
    dataWord ⟨b0, b1, b2, b3⟩ = (b0.setWidth 32 ||| (b1.setWidth 32 <<< 8) ||| (b2.setWidth 32 <<< 16) |||
      (b3.setWidth 32 <<< 24)) ∧
    (dataWord ⟨b0, b1, b2, b3⟩).extractLsb 7 0 = b0 ∧ (dataWord ⟨b0, b1, b2, b3⟩).extractLsb 15 8 = b1 ∧
    (dataWord ⟨b0, b1, b2, b3⟩).extractLsb 23 16 = b2 ∧ (dataWord ⟨b0, b1, b2, b3⟩).extractLsb 31 24 = b3 ∧
    ∀ (j : Fin 4) (t : Fin 8), (dataWord ⟨b0, b1, b2, b3⟩).getLsbD (8 * j.val + t.val) =
      ((groupData ⟨b0, b1, b2, b3⟩).getD j.val 0).getLsbD t.val) ∧
  (∀ w : Word, ∃ g : Group, dataWord g = w) ∧
  groupCode ⟨0x01#8, 0x00#8, 0x00#8, 0x00#8⟩ = 0x43#8 ∧ groupCode ⟨0x00#8, 0x00#8, 0x00#8, 0x01#8⟩ = 0x5E#8

/-- R60: the masks are the coverage sets as 32-bit masks, with the values and sizes of the table. -/
def Obligations.CoverageTable : Prop :=
  (∀ k : Fin 6, (coverageMask k).toNat = ((coverageSet k).map (fun i => 2 ^ i)).sum) ∧
  (List.finRange 6).map coverageSet =
    [[0, 1, 3, 4, 6, 8, 10, 11, 13, 15, 17, 19, 21, 23, 25, 26, 28, 30],
     [0, 2, 3, 5, 6, 9, 10, 12, 13, 16, 17, 20, 21, 24, 25, 27, 28, 31],
     [1, 2, 3, 7, 8, 9, 10, 14, 15, 16, 17, 22, 23, 24, 25, 29, 30, 31],
     [4, 5, 6, 7, 8, 9, 10, 18, 19, 20, 21, 22, 23, 24, 25],
     [11, 12, 13, 14, 15, 16, 17, 18, 19, 20, 21, 22, 23, 24, 25],
     [26, 27, 28, 29, 30, 31]] ∧
  (List.finRange 6).map (fun k => (coverageSet k).length) = [18, 18, 18, 15, 15, 6] ∧
  (List.finRange 6).map coverageMask =
    [0x56AAAD5B#32, 0x9B33366D#32, 0xE3C3C78E#32, 0x03FC07F0#32, 0x03FFF800#32, 0xFC000000#32]

/-- R62 and R66: the coverage sets are the classical Hamming construction. The positions `H` are those of 1 to 38 that are
not powers of two, in increasing order; `S_k` is the set of data bits whose position has bit `k`; the code's columns
are as tabulated and follow the closed form. -/
def Obligations.CoverageIsHammingConstruction : Prop :=
  (List.range 32).map codewordPosition =
    ((List.range 39).drop 1).filter (fun p => !([1, 2, 4, 8, 16, 32].contains p)) ∧
  (codewordPosition 0 = 3 ∧ (∀ i ≤ 3, 1 ≤ i → codewordPosition i = i + 4) ∧
    (∀ i ≤ 10, 4 ≤ i → codewordPosition i = i + 5) ∧ (∀ i ≤ 25, 11 ≤ i → codewordPosition i = i + 6) ∧
    (∀ i ≤ 31, 26 ≤ i → codewordPosition i = i + 7)) ∧
  (∀ k : Fin 6, coverageSet k = (List.range 32).filter (fun i => (codewordPosition i).testBit k.val)) ∧
  (List.finRange 6).map (fun k => (coverageSet k).length) = [18, 18, 18, 15, 15, 6] ∧
  (∀ i : Fin 32, (checkCode (1#32 <<< i.val)).toNat =
    codewordPosition i.val ||| ((1 ^^^ (parity (BitVec.ofNat 6 (codewordPosition i.val))).toNat) <<< 6)) ∧
  (List.range 32).map (fun i => checkCode (1#32 <<< i)) =
    [0x43#8, 0x45#8, 0x46#8, 0x07#8, 0x49#8, 0x4A#8, 0x0B#8, 0x4C#8, 0x0D#8, 0x0E#8, 0x4F#8, 0x51#8, 0x52#8, 0x13#8,
     0x54#8, 0x15#8, 0x16#8, 0x57#8, 0x58#8, 0x19#8, 0x1A#8, 0x5B#8, 0x1C#8, 0x5D#8, 0x5E#8, 0x1F#8, 0x61#8, 0x62#8,
     0x23#8, 0x64#8, 0x25#8, 0x26#8]

/-- R61 and R49: `Pk` is the exclusive or of the data bits at `S_k`, `P6` that of all 32 data bits with P0..P5, and the check
byte is their sum by shifts, its bit 7 zero and its value in `[0, 127]`. -/
def Obligations.CheckCodeIsTheSevenParities : Prop :=
  ∀ w : Word,
    (∀ k : Fin 6, locatorParity w k = ((coverageSet k).map w.getLsbD).foldl Bool.xor false ∧
      locatorParity w k = parity (w &&& coverageMask k) ∧ (checkCode w).getLsbD k.val = locatorParity w k) ∧
    overallParity w = (((List.range 32).map w.getLsbD) ++ (List.finRange 6).map (locatorParity w)).foldl Bool.xor false ∧
    (checkCode w).getLsbD 6 = overallParity w ∧
    (checkCode w).toNat = (locatorParity w 0).toNat ||| ((locatorParity w 1).toNat <<< 1) |||
      ((locatorParity w 2).toNat <<< 2) ||| ((locatorParity w 3).toNat <<< 3) ||| ((locatorParity w 4).toNat <<< 4) |||
      ((locatorParity w 5).toNat <<< 5) ||| ((overallParity w).toNat <<< 6) ∧
    (checkCode w).getLsbD 7 = false ∧ (checkCode w).toNat ≤ 127

/-- R63: the check code is linear over GF(2), so it is the exclusive or of the columns at the set bits of the word. -/
def Obligations.CheckCodeIsLinear : Prop :=
  checkCode 0 = 0 ∧ (∀ x y : Word, checkCode (x ^^^ y) = checkCode x ^^^ checkCode y) ∧
  ∀ w : Word, checkCode w =
    (((List.range 32).filter w.getLsbD).map (fun i => checkCode (1#32 <<< i))).foldl (fun c d => c ^^^ d) 0

/-- R64: the 39-bit codeword has an even number of ones. -/
def Obligations.CodewordWeightIsEven : Prop :=
  ∀ w : Word, (parity w ^^ parity (checkCode w)) = false ∧ (popcount w + popcount (checkCode w)) % 2 = 0

/-- R65: a check code is in `[0, 127]`, so no command stops with ERR_INTERNAL in any state. -/
def Obligations.CheckCodeRangeNeverFaults : Prop :=
  (∀ w : Word, (checkCode w).getLsbD 7 = false ∧ (checkCode w).toNat ≤ 127) ∧
  ∀ (i : Instr) (s : State) (c : Byte), exec i s ≠ .fault (.errInternal c)

/-- R68: flipping one bit of a codeword makes the locator difference the flipped bit's position, `H(i)` for data bit `i`,
`2^k` for `Pk` and 0 for `P6`; these are 39 different values, and `H(i)` is nonzero, no power of two, and in 3 to 38. -/
def Obligations.SingleErrorIsLocated : Prop :=
  (∀ (w : Word) (i : Fin 32),
    locatorField (checkCode w ^^^ checkCode (w ^^^ (1#32 <<< i.val))) = codewordPosition i.val) ∧
  (∀ i j : Fin 32, codewordPosition i.val = codewordPosition j.val → i = j) ∧
  (∀ i : Fin 32, codewordPosition i.val ≠ 0 ∧ (∀ k, codewordPosition i.val ≠ 2 ^ k) ∧
    3 ≤ codewordPosition i.val ∧ codewordPosition i.val ≤ 38) ∧
  (∀ (w : Word) (b : CodewordBit), ((codewordOf w).flip b).locatorDifference = b.position) ∧
  (∀ b d : CodewordBit, b.position = d.position → b = d)

/-- R69: two flipped data bits make the locator difference `H(i) ⊕ H(j)`, never zero, so the two words' check codes differ;
any two flipped bits of a codeword keep its parity even and make the locator difference nonzero; and the minimum
distance of the code is 4. -/
def Obligations.DoubleErrorIsDetected : Prop :=
  (∀ (w : Word) (i j : Fin 32), i ≠ j →
    locatorField (checkCode w ^^^ checkCode (w ^^^ (1#32 <<< i.val) ^^^ (1#32 <<< j.val))) =
      codewordPosition i.val ^^^ codewordPosition j.val ∧
    codewordPosition i.val ^^^ codewordPosition j.val ≠ 0 ∧
    checkCode w ≠ checkCode (w ^^^ (1#32 <<< i.val) ^^^ (1#32 <<< j.val))) ∧
  (∀ (w : Word) (b d : CodewordBit), b ≠ d →
    (((codewordOf w).flip b).flip d).parityBit = false ∧ (((codewordOf w).flip b).flip d).locatorDifference ≠ 0) ∧
  (∀ x y : Word, x ≠ y → 4 ≤ popcount (x ^^^ y) + popcount (checkCode x ^^^ checkCode y)) ∧
  (∃ x y : Word, x ≠ y ∧ popcount (x ^^^ y) + popcount (checkCode x ^^^ checkCode y) = 4)

/-- R67, ENC: in every state the response is the word's check code and nothing else changes; its form, its
corner cases and its example. -/
def Obligations.EncReturnsTheCheckCode : Prop :=
  (∀ (w : Word) (s : State),
    exec (.enc w) s = .next { s with responses := s.responses ++ [.ok (.checkByte (checkCode w))] }) ∧
  (∀ w : Word, (encode (.enc w)).head? = some 0x01#8 ∧ (encode (.enc w)).length = 5) ∧
  assemble ['E', 'N', 'C', ' ', '1'] = some (.enc 1#32) ∧
  checkCode 0x00000000#32 = 0x00#8 ∧ checkCode 0xFFFFFFFF#32 = 0x18#8 ∧ checkCode 0x00000001#32 = 0x43#8 ∧
  (List.finRange 6).map (locatorParity 0xFFFFFFFF#32) = [false, false, false, true, true, false] ∧
  overallParity 0xFFFFFFFF#32 = false

/-! ## Block Layout Engine -/

/-- R71, START: a non-negative address seeds the counter with its value modulo 32 and changes nothing else of the
block's state; a negative one is answered with ERR_ADDRESS; its form, corner cases and example. -/
def Obligations.StartSeedsTheCounter : Prop :=
  (∀ (a : Int) (s : State), 0 ≤ a → exec (.start a) s =
    .next { s with cnt := some (a % 32).toNat, responses := s.responses ++ [.ok .nothing] }) ∧
  (∀ a : Int, 0 ≤ a → (a % 32).toNat ≤ 31) ∧
  (∀ (a : Int) (s : State), a < 0 → exec (.start a) s =
    .next { s with responses := s.responses ++ [.error (.address a)] }) ∧
  (∀ a : Int, (encode (.start a)).head? = some 0x02#8 ∧ (encode (.start a)).length = 9) ∧
  assemble ['S', 'T', 'A', 'R', 'T', ' ', '0', 'x', '1', '0', '1', '9'] = some (.start 0x1019) ∧
  (∀ s : State, ∀ p ∈ [((0 : Int), 0), (31, 31), (32, 0), (30, 30), (0x1019, 25)],
    ∃ t, exec (.start p.1) s = .next t ∧ t.cnt = some p.2) ∧
  (∀ (a : Int) (s : State), 2 ^ 64 ≤ a → exec (.start a) s = exec (.start (a % 32)) s) ∧
  (∀ (a a' : Int) (s t u : State), 0 ≤ a' → exec (.start a) s = .next t → exec (.start a') t = .next u →
    u.cnt = some (a' % 32).toNat ∧ u.out = s.out)

/-- R72 and R78: one group step, its test an exact equality with 30 after the advance. -/
def Obligations.GroupStepTestsExactly30 : Prop :=
  ∀ (c : Nat) (b0 b1 b2 b3 : Byte),
    (c + 5 = 30 → groupStep c ⟨b0, b1, b2, b3⟩ =
      (0, [b0, b1, b2, b3, checkCode (dataWord ⟨b0, b1, b2, b3⟩), 0x00#8, 0x00#8])) ∧
    (c + 5 ≠ 30 → groupStep c ⟨b0, b1, b2, b3⟩ =
      (c + 5, [b0, b1, b2, b3, checkCode (dataWord ⟨b0, b1, b2, b3⟩)])) ∧
    ((groupStep c ⟨b0, b1, b2, b3⟩).2.length = 7 ↔ c = 25) ∧
    ((groupStep c ⟨b0, b1, b2, b3⟩).2.length = 5 ↔ c ≠ 25)

/-- R73, GROUP: with the counter seeded, the step's bytes go to the output stream and the counter advances, or goes to 0
after the filler; unseeded, the answer is ERR_NOT_STARTED; its form, corner cases and example. -/
def Obligations.GroupEncodesOneGroup : Prop :=
  (∀ (b0 b1 b2 b3 : Byte) (c : Nat) (s : State), s.cnt = some c →
    exec (.group b0 b1 b2 b3) s = .next { s with
      cnt := some (if c + 5 = 30 then 0 else c + 5),
      out := s.out ++ [b0, b1, b2, b3, checkCode (b3 ++ b2 ++ b1 ++ b0)] ++
        (if c + 5 = 30 then [0x00#8, 0x00#8] else []),
      responses := s.responses ++ [.ok .nothing] }) ∧
  (∀ (b0 b1 b2 b3 : Byte) (s : State), s.cnt = none →
    exec (.group b0 b1 b2 b3) s = .next { s with responses := s.responses ++ [.error .notStarted] }) ∧
  (∀ b0 b1 b2 b3 : Byte, (encode (.group b0 b1 b2 b3)).head? = some 0x03#8 ∧
    (encode (.group b0 b1 b2 b3)).length = 5) ∧
  assemble ['G', 'R', 'O', 'U', 'P', ' ', '1', ',', '0', ',', '0', ',', '0'] =
    some (.group 0x01#8 0x00#8 0x00#8 0x00#8) ∧
  (∀ (g : Group) (s : State), s.cnt = some 25 →
    ∃ t, exec (groupCommand g) s = .next t ∧ t.cnt = some 0 ∧ t.out = s.out ++ groupBytes g ++ [0x00#8, 0x00#8]) ∧
  (∀ (gs : List Group) (g : Group) (s : State), s.cnt = some 30 ∨ s.cnt = some 31 →
    ∃ t u, execAll (gs.map groupCommand) s = .next t ∧ exec (groupCommand g) t = .next u ∧
      u.out = t.out ++ groupBytes g ∧
      (gs = [] → s.cnt = some 30 → u.cnt = some 35) ∧ (gs = [] → s.cnt = some 31 → u.cnt = some 36)) ∧
  (∀ c : Nat, groupStep c ⟨0x00#8, 0x00#8, 0x00#8, 0x00#8⟩ = if c = 25
    then (0, [0x00#8, 0x00#8, 0x00#8, 0x00#8, 0x00#8, 0x00#8, 0x00#8])
    else (c + 5, [0x00#8, 0x00#8, 0x00#8, 0x00#8, 0x00#8])) ∧
  (∀ (c c' : Nat) (g : Group), (groupStep c g).2.take 5 = (groupStep c' g).2.take 5) ∧
  groupStep 0 ⟨0x01#8, 0x00#8, 0x00#8, 0x00#8⟩ = (5, [0x01#8, 0x00#8, 0x00#8, 0x00#8, 0x43#8])

/-- R74: the output changes at a step only by a reset event, which empties it, or by one GROUP, which appends its five
bytes and directly after them the filler exactly when it brings the counter to 30. -/
def Obligations.FillerOnlyAfterTheGroupThatReaches30 : Prop :=
  filler = [0x00#8, 0x00#8] ∧
  ∀ s t : State, step s = .next t →
    t.out = s.out ∨ (∃ u, fetch s = .resetNow u ∧ t.out = []) ∨
    ∃ u b0 b1 b2 b3 c, fetch s = .run (.group b0 b1 b2 b3) u ∧ s.cnt = some c ∧
      t.out = s.out ++ groupBytes ⟨b0, b1, b2, b3⟩ ++ (if c + 5 = 30 then filler else [])

/-- R75: the counter seeded with `r` reaches 30 exactly from the aligned offsets; from `r = 5q` it is
`(r + 5k) mod 30` after `k` groups, filler follows the `k`-th group exactly when `(q + k) mod 6 = 0`, so first
after group `(30 - r)/5` and then after every 6th. -/
def Obligations.AlignedCounterCycles : Prop :=
  (∀ r < 32, (∃ gs : List Group, (layout r gs).1 + 5 = 30) ↔ r ∈ alignedOffsets) ∧
  (∀ q ≤ 5, ∀ (gs : List Group) (g : Group),
    5 * q ∈ alignedOffsets ∧ (layout (5 * q) gs).1 = (5 * q + 5 * gs.length) % 30 ∧
    ((groupStep (layout (5 * q) gs).1 g).2 = groupBytes g ++ filler ↔ (q + (gs.length + 1)) % 6 = 0) ∧
    ((groupStep (layout (5 * q) gs).1 g).2 = groupBytes g ++ filler ↔
      ∃ m, gs.length + 1 = (30 - 5 * q) / 5 + 6 * m))

/-- R76: from an offset outside ALIGNED the counter never equals 30 and grows, no filler is ever emitted, and some group
straddles a physical block boundary and some covers each of the block offsets 30 and 31. -/
def Obligations.OvershootEmitsNoFiller : Prop :=
  (∀ r < 32, r ∉ alignedOffsets ↔ r ∈ [1, 2, 3, 4, 6, 7, 8, 9, 11, 12, 13, 14, 16, 17, 18, 19, 21, 22, 23, 24, 26, 27, 28,
    29, 30, 31]) ∧
  (∀ r < 32, r ∉ alignedOffsets → ∀ gs : List Group,
    layout r gs = (r + 5 * gs.length, gs.flatMap groupBytes) ∧ (layout r gs).1 + 5 ≠ 30) ∧
  (∀ a : Int, 0 ≤ a → startOffset a ∉ alignedOffsets →
    (∃ g < 32, 27 < blockOffset (placeAt a (5 * g))) ∧
    (∃ g < 32, ∃ d < 5, blockOffset (placeAt a (5 * g + d)) = 30) ∧
    (∃ g < 32, ∃ d < 5, blockOffset (placeAt a (5 * g + d)) = 31))

/-- R77: whatever the state before, a START followed by GROUPs appends the layout of its own region from its own
offset; so a multi-region stream is the concatenation of its regions' outputs. -/
def Obligations.RegionsConcatenate : Prop :=
  ∀ (regions : List (Int × List Group)) (s : State), (∀ p ∈ regions, 0 ≤ p.1) →
    ∃ t, execAll (regions.flatMap fun p => .start p.1 :: p.2.map groupCommand) s = .next t ∧
      t.out = s.out ++ regions.flatMap fun p => (layout (p.1 % 32).toNat p.2).2

/-- R80: for a valid image and address, in any state, the bytes `out` gains from streaming equal the response of XFORM,
and no command of the sequence raises. -/
def Obligations.StreamingEqualsXform : Prop :=
  ∀ (image : List Byte) (a : Int) (s : State), image.length ≠ 0 → image.length % 4 = 0 → 0 ≤ a →
    ∃ t u bs, execAll (streamCommands image a) s = .next t ∧ t.out = s.out ++ bs ∧
      (∃ rs, t.responses = s.responses ++ rs ∧ rs.length = image.length / 4 + 1 ∧ ∀ r ∈ rs, r = .ok .nothing) ∧
      exec (.xform image a) s = .next u ∧ u.responses = s.responses ++ [.ok (.bytes bs)]

/-- R81, XFORM: on a valid image and a non-negative address the response is the loop of the group step over the groups from
the local counter `a mod 32`, and nothing else changes; otherwise the error; its form, corner cases and example. -/
def Obligations.XformTransformsTheImage : Prop :=
  (∀ (image : List Byte) (a : Int) (s : State), image.length ≠ 0 → image.length % 4 = 0 → 0 ≤ a →
    exec (.xform image a) s = .next { s with responses := s.responses ++ [.ok (.bytes
      ((List.range (image.length / 4)).foldl (fun (acc : Nat × List Byte) g =>
        ((groupStep acc.1 (groupAt image g)).1, acc.2 ++ (groupStep acc.1 (groupAt image g)).2))
        ((a % 32).toNat, [])).2)] }) ∧
  (∀ (image : List Byte) (a : Int) (s : State), (image.length = 0 ∨ image.length % 4 ≠ 0) →
    exec (.xform image a) s = .next { s with responses := s.responses ++ [.error (.inputLength image.length)] }) ∧
  (∀ (image : List Byte) (a : Int) (s : State), image.length ≠ 0 → image.length % 4 = 0 → a < 0 →
    exec (.xform image a) s = .next { s with responses := s.responses ++ [.error (.address a)] }) ∧
  (∀ (image : List Byte) (a : Int), (encode (.xform image a)).head? = some 0x04#8 ∧
    (encode (.xform image a)).length = 13 + image.length) ∧
  assemble ['X', 'F', 'O', 'R', 'M', ' ', '0', ',', ' ', '[', '0', 'x', '0', '0', ',', ' ', '0', 'x', '0', '0', ',', ' ',
    '0', 'x', '0', '0', ',', ' ', '0', 'x', '0', '0', ']'] = some (.xform [0x00#8, 0x00#8, 0x00#8, 0x00#8] 0) ∧
  (∀ (image : List Byte) (a : Int), 0 ≤ a →
    (image.length = 4 → a = 0 → (transform image a).length = 5) ∧
    (image.length = 4 → a % 32 = 25 → (transform image a).length = 7) ∧
    (image.length = 24 → a = 0 → (transform image a).length = 32 ∧ (transform image a).drop 30 = [0x00#8, 0x00#8]) ∧
    (image.length = 28 → a = 0 → (transform image a).length = 37) ∧
    ((a % 32).toNat ∉ alignedOffsets → (transform image a).length = 5 * (image.length / 4))) ∧
  transform [0x00#8, 0x00#8, 0x00#8, 0x00#8] 0 = [0x00#8, 0x00#8, 0x00#8, 0x00#8, 0x00#8]

/-- R82, R91 and R33: XFORM's length check comes before its address check and records the length; on either error nothing is
returned and nothing else changes. -/
def Obligations.XformChecksTheLengthFirst : Prop :=
  (∀ (image : List Byte) (a : Int) (s : State), (image.length = 0 ∨ image.length % 4 ≠ 0) →
    exec (.xform image a) s = .next { s with responses := s.responses ++ [.error (.inputLength image.length)] }) ∧
  (∀ (image : List Byte) (a : Int) (s : State), image.length ≠ 0 → image.length % 4 = 0 → a < 0 →
    exec (.xform image a) s = .next { s with responses := s.responses ++ [.error (.address a)] }) ∧
  (∀ n, Response.code (.error (.inputLength n)) = 1 ∧ CommandError.recorded (.inputLength n) = some (n : Int)) ∧
  (∀ (image bs : List Byte) (a : Int) (s : State), (image.length = 0 ∨ image.length % 4 ≠ 0 ∨ a < 0) →
    exec (.xform image a) s ≠ .next { s with responses := s.responses ++ [.ok (.bytes bs)] })

/-- R92, R35 and R88: START and XFORM answer ERR_ADDRESS on a negative address, recording it; every non-negative address is
accepted, and two with the same offset give the same. -/
def Obligations.AddressMattersOnlyModulo32 : Prop :=
  (∀ (a : Int) (s : State), a < 0 →
    exec (.start a) s = .next { s with responses := s.responses ++ [.error (.address a)] } ∧
    (∀ image : List Byte, image.length ≠ 0 → image.length % 4 = 0 →
      exec (.xform image a) s = .next { s with responses := s.responses ++ [.error (.address a)] })) ∧
  (∀ a : Int, Response.code (.error (.address a)) = 2 ∧ CommandError.recorded (.address a) = some a) ∧
  (∀ (a : Int) (s : State), 0 ≤ a →
    (∃ t, exec (.start a) s = .next t ∧ t.responses = s.responses ++ [.ok .nothing]) ∧
    ∀ image : List Byte, image.length ≠ 0 → image.length % 4 = 0 →
      ∃ t bs, exec (.xform image a) s = .next t ∧ t.responses = s.responses ++ [.ok (.bytes bs)]) ∧
  (∀ (a a' : Int) (s : State), 0 ≤ a → 0 ≤ a' → a % 32 = a' % 32 →
    exec (.start a) s = exec (.start a') s ∧ ∀ image : List Byte, exec (.xform image a) s = exec (.xform image a') s)

/-- R84: XFORM's response depends only on the image and `a mod 32`, not on the state, and leaving the pure commands out of any
run of commands leaves the counter and the stream it ends with unchanged. -/
def Obligations.XformIsPure : Prop :=
  (∀ (image : List Byte) (a a' : Int), 0 ≤ a → 0 ≤ a' → a % 32 = a' % 32 →
    ∃ r, ∀ s : State, exec (.xform image a) s = .next { s with responses := s.responses ++ [r] } ∧
      exec (.xform image a') s = .next { s with responses := s.responses ++ [r] }) ∧
  (∀ (is : List Instr) (s : State), ∃ t u, execAll is s = .next t ∧
    execAll (is.filter fun i => !isPure i) s = .next u ∧ u.cnt = t.cnt ∧ u.out = t.out)

/-- R29: the groups XFORM reads are `s[4g] .. s[4g+3]` in order, each byte read once. -/
def Obligations.InputIsReadInOrder : Prop :=
  ∀ image : List Byte,
    groupsOf image = (List.range (image.length / 4)).map (groupAt image) ∧
    (∀ g < image.length / 4, groupData (groupAt image g) = memRead image (4 * g) 4) ∧
    (image.length % 4 = 0 → (groupsOf image).flatMap groupData = image)

/-- R85: the output length is `5n + 2f`. -/
def Obligations.OutputLength : Prop :=
  ∀ (image : List Byte) (a : Int), 0 ≤ a → image.length % 4 = 0 →
    (transform image a).length =
      5 * (image.length / 4) + 2 * (if (a % 32).toNat ∈ alignedOffsets
        then (image.length / 4 + (a % 32).toNat / 5) / 6 else 0)

/-- R86: at output index `p(g)` stand the bytes of group `g` and its check code; every other byte is 0x00 and belongs to a
filler, directly after a group. -/
def Obligations.OutputContent : Prop :=
  ∀ (image : List Byte) (a : Int), 0 ≤ a → image.length % 4 = 0 →
    (∀ g < image.length / 4, memRead (transform image a) (groupIndex (a % 32).toNat g) 5 =
      memRead image (4 * g) 4 ++ [checkCode (dataWord (groupAt image g))]) ∧
    (∀ j < (transform image a).length,
      (∀ g < image.length / 4, j < groupIndex (a % 32).toNat g ∨ groupIndex (a % 32).toNat g + 5 ≤ j) →
      (transform image a)[j]? = some 0x00#8 ∧
        ∃ g < image.length / 4, fillersBefore (a % 32).toNat (g + 1) = fillersBefore (a % 32).toNat g + 1 ∧
          (j = groupIndex (a % 32).toNat g + 5 ∨ j = groupIndex (a % 32).toNat g + 6))

/-- R40: from an aligned offset `5q` group `g` is at output index `5g + 2*floor((g+q)/6)` and, by R38, at that
physical address, so at block offset `5*((g+q) mod 6)` and never at 30 or 31; every filler byte is at block
offset 30 or 31. -/
def Obligations.AlignedOutputMeetsTheBlockMap : Prop :=
  ∀ (image : List Byte) (a : Int) (q : Nat), 0 ≤ a → q ≤ 5 → a % 32 = 5 * q → image.length % 4 = 0 →
    (∀ g < image.length / 4,
      memRead (transform image a) (5 * g + 2 * ((g + q) / 6)) 5 = groupBytes (groupAt image g) ∧
      placeAt a (5 * g + 2 * ((g + q) / 6)) = 32 * (a / 32 + ((g + q) / 6 : Nat)) + 5 * ((g + q) % 6 : Nat) ∧
      ∀ d < 5, blockOffset (placeAt a (5 * g + 2 * ((g + q) / 6) + d)) = 5 * ((g + q) % 6) + d ∧
        blockOffset (placeAt a (5 * g + 2 * ((g + q) / 6) + d)) < 30) ∧
    (∀ j < (transform image a).length,
      (∀ g < image.length / 4, j < 5 * g + 2 * ((g + q) / 6) ∨ 5 * g + 2 * ((g + q) / 6) + 5 ≤ j) →
      (blockOffset (placeAt a j) = 30 ∨ blockOffset (placeAt a j) = 31) ∧ (transform image a)[j]? = some 0x00#8)

/-- R41: the output ends with the last group's check byte, or with the filler if that group brings the counter to 30;
there is no padding after. -/
def Obligations.OutputEndsWithTheLastGroup : Prop :=
  ∀ (image last : List Byte) (a : Int), 0 ≤ a → image.length % 4 = 0 → last.length = 4 →
    ∃ before, transform (image ++ last) a = before ++ last ++ [checkCode (dataWord (groupAt last 0))] ++
        (if (layout (a % 32).toNat (groupsOf image)).1 + 5 = 30 then [0x00#8, 0x00#8] else []) ∧
      before = transform image a

/-- Counter continuity: without a START between them, a second run of groups continues from the counter the first one left
(70_reset_and_hazards.md, section 2, hazard (b)). -/
def Obligations.CounterCarriesOverBetweenGroups : Prop :=
  ∀ (gs hs : List Group) (c : Nat) (s : State), s.cnt = some c →
    ∃ t u, execAll (gs.map groupCommand) s = .next t ∧ execAll (hs.map groupCommand) t = .next u ∧
      t.cnt = some (layout c gs).1 ∧ t.out = s.out ++ (layout c gs).2 ∧
      u.cnt = some (layout c (gs ++ hs)).1 ∧ u.out = s.out ++ (layout c (gs ++ hs)).2

/-- R18: the legal values of the counter; two counters above 30 cannot be told apart by any later commands, so a saturated
counter would do; a counter wrapping at 256 would not. -/
def Obligations.CounterLegalValuesAndSaturation : Prop :=
  (∀ (a : Int) (s : State), 0 ≤ a → ∃ t, exec (.start a) s = .next t ∧ t.cnt = some (a % 32).toNat ∧
    (a % 32).toNat ≤ 31) ∧
  (∀ r ∈ alignedOffsets, ∀ gs : List Group, (layout r gs).1 ∈ alignedOffsets) ∧
  (∀ r < 32, r ∉ alignedOffsets → ∀ gs : List Group, (layout r gs).1 = r + 5 * gs.length) ∧
  (∀ (is : List Instr) (s : State) (c c' : Nat), 30 < c → 30 < c' →
    ∃ t t', execAll is { s with cnt := some c } = .next t ∧ execAll is { s with cnt := some c' } = .next t' ∧
      t'.out = t.out ∧ t'.responses = t.responses) ∧
  (∀ (gs : List Group) (g : Group), gs.length = 50 →
    (layout 31 gs).1 + 5 = 256 + 30 ∧ (groupStep (layout 31 gs).1 g).2 = groupBytes g)

/-! ## Responses and errors -/

/-- R89 and R97: in every state every command answers exactly one response; with status OK it carries the
command's result, and with an error nothing else changes. -/
def Obligations.EveryCommandAnswersOnce : Prop :=
  ∀ (i : Instr) (s : State), ∃ t r, exec i s = .next t ∧ t.responses = s.responses ++ [r] ∧ t.inbox = s.inbox ∧
    (∀ e, r = .error e → t.cnt = s.cnt ∧ t.out = s.out) ∧
    (∀ v, r = .ok v → match i with
      | .enc w => v = .checkByte (checkCode w)
      | .start _ => v = .nothing
      | .group _ _ _ _ => v = .nothing
      | .xform image a => v = .bytes (transform image a))

/-- The status codes, and for each the commands that raise it, its cause and its recorded value: the table of
60_exceptions.md section 1. Which requests stay in the inbox after an illegal string (the rest of the string at the
front, an empty rest dropped, a truncated string taken whole) is not in that table: it is the model's choice (log
entries 1 and 2). -/
def Obligations.StatusCodeTable : Prop :=
  (∀ v, Response.code (.ok v) = 0) ∧
  (∀ n, Response.code (.error (.inputLength n)) = 1 ∧ CommandError.recorded (.inputLength n) = some (n : Int)) ∧
  (∀ a, Response.code (.error (.address a)) = 2 ∧ CommandError.recorded (.address a) = some a) ∧
  (Response.code (.error .notStarted) = 3 ∧ CommandError.recorded .notStarted = none) ∧
  (∀ op : Byte, Response.code (.error (.illegalOp op)) = 4 ∧ CommandError.recorded (.illegalOp op) = some (op.toNat : Int)) ∧
  (∀ c, Fault.code (.errInternal c) = 5) ∧
  (∀ (i : Instr) (s : State) (e : CommandError),
    exec i s = .next { s with responses := s.responses ++ [.error e] } ↔
      ((∃ image a, i = .xform image a ∧ (image.length = 0 ∨ image.length % 4 ≠ 0) ∧ e = .inputLength image.length) ∨
       (∃ a, a < 0 ∧ e = .address a ∧ (i = .start a ∨
          ∃ image, i = .xform image a ∧ image.length ≠ 0 ∧ image.length % 4 = 0)) ∨
       (∃ b0 b1 b2 b3, i = .group b0 b1 b2 b3 ∧ s.cnt = none ∧ e = .notStarted))) ∧
  (∀ (s t : State) (op : Byte), fetch s = .illegal op t ↔ ∃ bs q, s.inbox = .bytes bs :: q ∧
    ((decode bs = .truncated op ∧ t = { s with inbox := q }) ∨
     ∃ rest, decode bs = .reserved op rest ∧ t = { s with inbox := if rest = [] then q else .bytes rest :: q })) ∧
  (∀ (s t : State) (op : Byte), fetch s = .illegal op t →
    step s = .next { t with responses := t.responses ++ [.error (.illegalOp op)] }) ∧
  (∀ (i : Instr) (s : State) (c : Byte), exec i s ≠ .fault (.errInternal c))

/-- R98: nothing is sticky: the same command in the state after an error raises the same error again, and any other command
then does to the block's state what it would have done before. -/
def Obligations.ErrorsAreNotSticky : Prop :=
  ∀ (i : Instr) (s t : State) (e : CommandError),
    exec i s = .next t → t.responses = s.responses ++ [.error e] →
    exec i t = .next { t with responses := t.responses ++ [.error e] } ∧
    ∀ (j : Instr) (u : State), exec j s = .next u →
      ∃ v r, exec j t = .next v ∧ v.cnt = u.cnt ∧ v.out = u.out ∧ v.inbox = u.inbox ∧
        u.responses = s.responses ++ [r] ∧ v.responses = t.responses ++ [r]

/-- From every state, whatever is in the inbox, a step answers a next state: none faults, and none is refused. The spec
says only that no command raises ERR_INTERNAL (60_exceptions.md section 2). That waiting with nothing to decode is a
next state is the model's reading (log entry 7), and so is that an error with a response, an illegal string's
included, is a next state and no fault or refusal (log entry 5). -/
def Obligations.EveryStepAnswersANextState : Prop :=
  ∀ s : State, ∃ t, step s = .next t

/-! ## Frames and invariants -/

/-- R13: the state is exactly the pair `(cnt, out)`: whatever else two states hold, a command does the same to the pair and
gives the same response. -/
def Obligations.OnlyCntAndOutAreState : Prop :=
  ∀ (i : Instr) (s s' : State), s.cnt = s'.cnt → s.out = s'.out →
    ∃ t t' r, exec i s = .next t ∧ exec i s' = .next t' ∧ t.cnt = t'.cnt ∧ t.out = t'.out ∧
      t.responses = s.responses ++ [r] ∧ t'.responses = s'.responses ++ [r]

/-- The fixed parameters agree with each other: six groups of five bytes fill the payload, payload and filler fill the
block, and the codeword is the data bits with the check bits (00_scope.md section 4). -/
def Obligations.ParametersAgree : Prop :=
  6 * Config.groupOut = Config.payload ∧ Config.payload + Config.fillN = Config.block ∧
    Config.groupOut = Config.groupIn + 1 ∧ Config.stride = Config.groupOut ∧ 8 * Config.groupIn = Config.dataW ∧
    Config.chkN = Config.locN + 1 ∧ Config.codeN = Config.dataW + Config.chkN ∧ Config.chkW = Config.chkN + 1 ∧
    Config.codeMax = 2 ^ Config.chkN - 1 ∧ Config.fillV = 0x00#8

/-- The frame of every command: ENC and XFORM leave the block's state, START leaves the stream and GROUP, on an unseeded
counter, both; no command touches the inbox, and each adds exactly one response behind those given. -/
def Obligations.CommandFrames : Prop :=
  ∀ (i : Instr) (s t : State), exec i s = .next t →
    t.inbox = s.inbox ∧ t.responses.take s.responses.length = s.responses ∧
    t.responses.length = s.responses.length + 1 ∧
    (∀ w, i = .enc w → t.cnt = s.cnt ∧ t.out = s.out) ∧
    (∀ image a, i = .xform image a → t.cnt = s.cnt ∧ t.out = s.out) ∧
    (∀ a, i = .start a → t.out = s.out ∧ (a < 0 → t.cnt = s.cnt)) ∧
    (∀ b0 b1 b2 b3, i = .group b0 b1 b2 b3 → s.cnt = none → t.cnt = s.cnt ∧ t.out = s.out)

/-- R19: the output stream is append-only under every command; START does not clear it, ENC and XFORM do not
append to it, and GROUP appends what it emits; its reset value is the empty sequence, and the host that has read
`n` bytes finds the bytes it had not read yet where they were, in order. -/
def Obligations.OutputIsAppendOnly : Prop :=
  State.reset.out = [] ∧
  (∀ (i : Instr) (s t : State), exec i s = .next t →
    s.out <+: t.out ∧ ∀ n ≤ s.out.length, s.readOutput n <+: t.readOutput n) ∧
  (∀ (i : Instr) (s t : State), exec i s = .next t → t.out ≠ s.out →
    ∃ b0 b1 b2 b3 c, i = .group b0 b1 b2 b3 ∧ s.cnt = some c ∧ t.out = s.out ++ (groupStep c ⟨b0, b1, b2, b3⟩).2)

/-- The counter changes at a step only by a reset event, a START with a non-negative address, or a GROUP with the counter
seeded. -/
def Obligations.CounterWriters : Prop :=
  ∀ s t : State, step s = .next t → t.cnt ≠ s.cnt →
    (∃ u, fetch s = .resetNow u ∧ t.cnt = none) ∨
    (∃ u a, fetch s = .run (.start a) u ∧ 0 ≤ a ∧ t.cnt = some (a % 32).toNat) ∨
    (∃ u b0 b1 b2 b3 c, fetch s = .run (.group b0 b1 b2 b3) u ∧ s.cnt = some c ∧
      t.cnt = some (if c + 5 = 30 then 0 else c + 5))

/-- R42: ENC and XFORM are pure, START is idempotent on the block's state, GROUP is not: it appends and advances. XFORM is
not an involution. -/
def Obligations.IdempotenceAndPurity : Prop :=
  (∀ (i : Instr) (s t : State), isPure i = true → exec i s = .next t → t.cnt = s.cnt ∧ t.out = s.out ∧
    ∀ s' t', exec i s' = .next t' → ∃ r, t.responses = s.responses ++ [r] ∧ t'.responses = s'.responses ++ [r]) ∧
  (∀ (a : Int) (s t : State), exec (.start a) s = .next t → t.out = s.out) ∧
  (∀ (a a' : Int) (s t u : State), 0 ≤ a → a % 32 = a' % 32 → 0 ≤ a' → exec (.start a) s = .next t →
    exec (.start a') t = .next u → u.cnt = t.cnt ∧ u.out = t.out) ∧
  (∀ (g : Group) (s t : State), s.cnt ≠ none → exec (groupCommand g) s = .next t →
    s.out.length < t.out.length ∧ t.cnt ≠ s.cnt) ∧
  (∀ (image : List Byte) (a a' : Int), image.length ≠ 0 → image.length % 4 = 0 → 0 ≤ a → 0 ≤ a' →
    transform image a ≠ image ∧ transform (transform image a) a' ≠ image)

/-- The invariant holds at reset. -/
def Obligations.ResetMeetsTheInvariant : Prop := State.reset.Inv

/-- At every step, from every state that meets it, the invariant is kept: the output is a concatenation of whole
group outputs, each with or without filler, and every response carries what its command may answer. -/
def Obligations.StepKeepsTheInvariant : Prop :=
  ∀ s t : State, s.Inv → step s = .next t → t.Inv

/-- From an aligned seed the streaming counter stays in ALIGNED at every command, as long as every START is aligned. -/
def Obligations.AlignedCounterIsKept : Prop :=
  ∀ (i : Instr) (s t : State), (∀ c, s.cnt = some c → c ∈ alignedOffsets) →
    (∀ a, i = .start a → 0 ≤ a → (a % 32).toNat ∈ alignedOffsets) → exec i s = .next t →
    ∀ c, t.cnt = some c → c ∈ alignedOffsets
end

