-- ==== Sys2Proof/Laws/State.lean ====
section
/-! SUPPORT. One lemma per field of the state per update: no later proof unfolds a record update. -/

namespace Sys2Proof.Machine

@[simp] theorem State.seed_cnt (c : Nat) (s : State) : (s.seed c).cnt = some c := rfl
@[simp] theorem State.seed_out (c : Nat) (s : State) : (s.seed c).out = s.out := rfl
@[simp] theorem State.seed_inbox (c : Nat) (s : State) : (s.seed c).inbox = s.inbox := rfl
@[simp] theorem State.seed_responses (c : Nat) (s : State) : (s.seed c).responses = s.responses := rfl

@[simp] theorem State.emit_cnt (bs : List Byte) (s : State) : (s.emit bs).cnt = s.cnt := rfl
@[simp] theorem State.emit_out (bs : List Byte) (s : State) : (s.emit bs).out = s.out ++ bs := rfl
@[simp] theorem State.emit_inbox (bs : List Byte) (s : State) : (s.emit bs).inbox = s.inbox := rfl
@[simp] theorem State.emit_responses (bs : List Byte) (s : State) : (s.emit bs).responses = s.responses := rfl

@[simp] theorem State.respond_cnt (r : Response) (s : State) : (s.respond r).cnt = s.cnt := rfl
@[simp] theorem State.respond_out (r : Response) (s : State) : (s.respond r).out = s.out := rfl
@[simp] theorem State.respond_inbox (r : Response) (s : State) : (s.respond r).inbox = s.inbox := rfl
@[simp] theorem State.respond_responses (r : Response) (s : State) : (s.respond r).responses = s.responses ++ [r] := rfl

@[simp] theorem State.answer_cnt (v : Result) (s : State) : (s.answer v).cnt = s.cnt := rfl
@[simp] theorem State.answer_out (v : Result) (s : State) : (s.answer v).out = s.out := rfl
@[simp] theorem State.answer_inbox (v : Result) (s : State) : (s.answer v).inbox = s.inbox := rfl
@[simp] theorem State.answer_responses (v : Result) (s : State) : (s.answer v).responses = s.responses ++ [.ok v] := rfl

@[simp] theorem State.raise_cnt (e : CommandError) (s : State) : (s.raise e).cnt = s.cnt := rfl
@[simp] theorem State.raise_out (e : CommandError) (s : State) : (s.raise e).out = s.out := rfl
@[simp] theorem State.raise_inbox (e : CommandError) (s : State) : (s.raise e).inbox = s.inbox := rfl
@[simp] theorem State.raise_responses (e : CommandError) (s : State) : (s.raise e).responses = s.responses ++ [.error e] := rfl

@[simp] theorem State.setInbox_cnt (q : List Request) (s : State) : (s.setInbox q).cnt = s.cnt := rfl
@[simp] theorem State.setInbox_out (q : List Request) (s : State) : (s.setInbox q).out = s.out := rfl
@[simp] theorem State.setInbox_inbox (q : List Request) (s : State) : (s.setInbox q).inbox = q := rfl
@[simp] theorem State.setInbox_responses (q : List Request) (s : State) : (s.setInbox q).responses = s.responses := rfl

@[simp] theorem State.send_cnt (r : Request) (s : State) : (s.send r).cnt = s.cnt := rfl
@[simp] theorem State.send_out (r : Request) (s : State) : (s.send r).out = s.out := rfl
@[simp] theorem State.send_inbox (r : Request) (s : State) : (s.send r).inbox = s.inbox ++ [r] := rfl
@[simp] theorem State.send_responses (r : Request) (s : State) : (s.send r).responses = s.responses := rfl

@[simp] theorem State.placeBytes_cnt (bs : List Byte) (s : State) : (s.placeBytes bs).cnt = s.cnt := rfl
@[simp] theorem State.placeBytes_out (bs : List Byte) (s : State) : (s.placeBytes bs).out = s.out := rfl
@[simp] theorem State.placeBytes_inbox (bs : List Byte) (s : State) : (s.placeBytes bs).inbox = .bytes bs :: s.inbox := rfl
@[simp] theorem State.placeBytes_responses (bs : List Byte) (s : State) : (s.placeBytes bs).responses = s.responses := rfl

@[simp] theorem State.resetEvent_cnt (s : State) : (s.resetEvent).cnt = none := rfl
@[simp] theorem State.resetEvent_out (s : State) : (s.resetEvent).out = [] := rfl
@[simp] theorem State.resetEvent_inbox (s : State) : (s.resetEvent).inbox = s.inbox := rfl
@[simp] theorem State.resetEvent_responses (s : State) : (s.resetEvent).responses = s.responses := rfl

@[simp] theorem State.reset_cnt : State.reset.cnt = none := rfl
@[simp] theorem State.reset_out : State.reset.out = [] := rfl
@[simp] theorem State.reset_inbox : State.reset.inbox = [] := rfl
@[simp] theorem State.reset_responses : State.reset.responses = [] := rfl

end Sys2Proof.Machine
end

