-- ==== Sys2Proof/Laws/WordCoder.lean ====
section
/-! SUPPORT. What the Word Coder's functions and the assertion on check codes can do. -/

namespace Sys2Proof.Machine

/-- Counting the positions where exactly one of two predicates holds, modulo 2. -/
theorem countP_xor_mod_two (p q : Nat → Bool) (l : List Nat) :
    l.countP (fun i => p i ^^ q i) % 2 = (l.countP p + l.countP q) % 2 := by
  induction l with
  | nil => rfl
  | cons a l ih =>
    simp only [List.countP_cons]
    cases p a <;> cases q a <;> simp <;> omega

/-- Parity is additive over exclusive or. -/
theorem parity_xor {n : Nat} (x y : BitVec n) : parity (x ^^^ y) = (parity x ^^ parity y) := by
  have h := countP_xor_mod_two (fun i => x.getLsbD i) (fun i => y.getLsbD i) (List.range n)
  simp only [parity, popcount, BitVec.getLsbD_xor, h]
  rcases Nat.mod_two_eq_zero_or_one ((List.range n).countP fun i => x.getLsbD i) with hx | hx <;>
    rcases Nat.mod_two_eq_zero_or_one ((List.range n).countP fun i => y.getLsbD i) with hy | hy <;>
    simp [Nat.add_mod, hx, hy]

theorem locatorParity_xor (x y : Word) (k : Fin 6) :
    locatorParity (x ^^^ y) k = (locatorParity x k ^^ locatorParity y k) := by
  have h : (x ^^^ y) &&& coverageMask k = (x &&& coverageMask k) ^^^ (y &&& coverageMask k) := by
    ext i; simp [Bool.and_xor_distrib_right]
  simp only [locatorParity, h, parity_xor]

/-- Every mask bit names its position: R62's construction gives R60's table (40_word_coder.md R66 asks a model to
carry this check). -/
theorem coverageMask_bit : ∀ (k : Fin 6) (i : Fin 32),
    (coverageMask k).getLsbD i.val = (codewordPosition i.val).testBit k.val := by
  decide +kernel

/-- The bits of a check byte, by position (30_encoding.md R49). -/
theorem checkCode_getLsbD (w : Word) (j : Nat) :
    (checkCode w).getLsbD j =
      (if h : j < 6 then locatorParity w ⟨j, h⟩ else if j = 6 then overallParity w else false) := by
  rcases Nat.lt_or_ge j 7 with hj | hj
  · simp only [checkCode, BitVec.getLsbD_setWidth, BitVec.getLsbD_append, BitVec.getLsbD_ofBool]
    interval_cases j <;> simp
  · have h6 : ¬ j < 6 := by omega
    have h6' : ¬ j = 6 := by omega
    simp only [checkCode, BitVec.getLsbD_setWidth, h6, h6', dite_false, if_false, Bool.and_eq_false_iff]
    exact Or.inr (BitVec.getLsbD_of_ge _ _ hj)

/-- A check byte is a 7-bit value. -/
theorem checkCode_le (w : Word) : (checkCode w).toNat ≤ Config.codeMax := by
  have h : (checkCode w).toNat < 2 ^ 7 := by
    simp only [checkCode, BitVec.toNat_setWidth]
    exact lt_of_le_of_lt (Nat.mod_le _ _) (BitVec.isLt _)
  simp only [Config.codeMax]
  omega

/-- The fatal assertion passes on real check codes. -/
theorem assertCodes_checkCodes (ws : List Word) (k : Host.Outcome State Fault Refusal) :
    assertCodes (ws.map checkCode) k = k := by
  have h : (ws.map checkCode).find? (fun c => decide (Config.codeMax < c.toNat)) = none := by
    simp only [List.find?_eq_none, List.mem_map, decide_eq_true_eq, not_lt]
    rintro _ ⟨w, -, rfl⟩
    exact checkCode_le w
  simp only [assertCodes, h]

/-- Everything the fatal assertion can do: let the command go on, or stop on a code outside `[0, 127]`. -/
theorem assertCodes_cases (codes : List Byte) (k : Host.Outcome State Fault Refusal) :
    (assertCodes codes k = k ∧ ∀ c ∈ codes, c.toNat ≤ Config.codeMax) ∨
      ∃ c ∈ codes, Config.codeMax < c.toNat ∧ assertCodes codes k = .fault (.errInternal c) := by
  cases h : codes.find? (fun c => decide (Config.codeMax < c.toNat)) with
  | none =>
    refine .inl ⟨by simp only [assertCodes, h], fun c hc => ?_⟩
    simpa using List.find?_eq_none.mp h c hc
  | some c =>
    refine .inr ⟨c, List.mem_of_find?_eq_some h, ?_, by simp only [assertCodes, h]⟩
    simpa using List.find?_some h

end Sys2Proof.Machine
end

