-- ==== Sys2Proof/Laws/BlockLayout.lean ====
section
/-! SUPPORT. What the group step, the layout loop and the meanings of the commands can do. -/

namespace Sys2Proof.Machine

@[simp] theorem groupData_length (g : Group) : (groupData g).length = 4 := rfl

@[simp] theorem groupBytes_length (g : Group) : (groupBytes g).length = 5 := rfl

@[simp] theorem filler_eq : filler = [0x00#8, 0x00#8] := rfl

/-- The group step when the filler is due. -/
theorem groupStep_filled (c : Nat) (g : Group) (h : c + 5 = 30) :
    groupStep c g = (0, groupBytes g ++ [0x00#8, 0x00#8]) := by
  simp [groupStep, h]

/-- The group step when it is not. -/
theorem groupStep_plain (c : Nat) (g : Group) (h : c + 5 ≠ 30) : groupStep c g = (c + 5, groupBytes g) := by
  simp [groupStep, h]

@[simp] theorem layout_nil (c : Nat) : layout c [] = (c, []) := rfl

theorem layout_cons (c : Nat) (g : Group) (gs : List Group) :
    layout c (g :: gs) =
      ((layout (groupStep c g).1 gs).1, (groupStep c g).2 ++ (layout (groupStep c g).1 gs).2) := rfl

/-- Laying out two runs of groups one after the other carries the counter over. -/
theorem layout_append (c : Nat) (gs hs : List Group) :
    layout c (gs ++ hs) =
      ((layout (layout c gs).1 hs).1, (layout c gs).2 ++ (layout (layout c gs).1 hs).2) := by
  induction gs generalizing c with
  | nil => rfl
  | cons g gs ih => simp [layout_cons, ih]

/-- The codes of groups pass the fatal assertion. -/
theorem assertCodes_groupCodes (gs : List Group) (k : Host.Outcome State Fault Refusal) :
    assertCodes (gs.map groupCode) k = k := by
  have h := assertCodes_checkCodes (gs.map dataWord) k
  rwa [List.map_map] at h

/-- Everything START can do. -/
theorem execStart_cases (a : Int) (s : State) :
    (a < 0 ∧ execStart a s = .next (s.raise (.address a))) ∨
      (0 ≤ a ∧ execStart a s = .next ((s.seed (startOffset a)).answer .nothing)) := by
  rcases lt_or_ge a 0 with h | h
  · exact .inl ⟨h, by simp [execStart, h]⟩
  · exact .inr ⟨h, by simp [execStart, not_lt.mpr h]⟩

/-- Everything GROUP can do. -/
theorem execGroup_cases (b0 b1 b2 b3 : Byte) (s : State) :
    (s.cnt = none ∧ execGroup b0 b1 b2 b3 s = .next (s.raise .notStarted)) ∨
      ∃ c, s.cnt = some c ∧ execGroup b0 b1 b2 b3 s = .next (((s.emit (groupStep c ⟨b0, b1, b2, b3⟩).2).seed
        (groupStep c ⟨b0, b1, b2, b3⟩).1).answer .nothing) := by
  cases h : s.cnt with
  | none => exact .inl ⟨rfl, by simp [execGroup, h]⟩
  | some c =>
    refine .inr ⟨c, rfl, ?_⟩
    simp only [execGroup, h]
    exact assertCodes_groupCodes [⟨b0, b1, b2, b3⟩] _

theorem imageLengthOk_iff (image : List Byte) :
    imageLengthOk image = true ↔ image.length ≠ 0 ∧ image.length % 4 = 0 := by
  simp [imageLengthOk]

/-- Everything XFORM can do. -/
theorem execXform_cases (image : List Byte) (a : Int) (s : State) :
    (imageLengthOk image = false ∧ execXform image a s = .next (s.raise (.inputLength image.length))) ∨
    (imageLengthOk image = true ∧ a < 0 ∧ execXform image a s = .next (s.raise (.address a))) ∨
      (imageLengthOk image = true ∧ 0 ≤ a ∧
        execXform image a s = .next (s.answer (.bytes (transform image a)))) := by
  cases h : imageLengthOk image with
  | false => exact .inl ⟨rfl, by simp [execXform, h]⟩
  | true =>
    rcases lt_or_ge a 0 with ha | ha
    · exact .inr (.inl ⟨rfl, ha, by simp [execXform, h, ha]⟩)
    · refine .inr (.inr ⟨rfl, ha, ?_⟩)
      simp only [execXform, h, not_lt.mpr ha, Bool.true_eq_false, if_false]
      exact assertCodes_groupCodes _ _

end Sys2Proof.Machine
end

