-- ==== Sys2Proof/Laws/Decode.lean ====
section
/-! SUPPORT. What the field operations of the decoder and the encoder can do. -/

namespace Sys2Proof

@[simp] theorem leBytes_length (n v : Nat) : (leBytes n v).length = n := by
  induction n generalizing v with
  | zero => rfl
  | succ n ih => simp [leBytes, ih]

/-- Reading back a field gives the value modulo the field's range. -/
theorem leNat_leBytes (n v : Nat) : leNat (leBytes n v) = v % 256 ^ n := by
  induction n generalizing v with
  | zero => simp [leBytes, leNat, Nat.mod_one]
  | succ n ih =>
    simp only [leBytes, leNat, ih, BitVec.toNat_ofNat, pow_succ']
    exact (Nat.mod_mul (x := v) (a := 256) (b := 256 ^ n)).symm

theorem leNat_lt (bs : List Byte) : leNat bs < 256 ^ bs.length := by
  induction bs with
  | nil => simp [leNat]
  | cons b bs ih =>
    have hb := b.isLt
    simp only [leNat, List.length_cons, pow_succ']
    omega

/-- Writing back the value a field holds gives the field. -/
theorem leBytes_leNat (bs : List Byte) : leBytes bs.length (leNat bs) = bs := by
  induction bs with
  | nil => rfl
  | cons b bs ih =>
    have hb := b.isLt
    have h1 : (b.toNat + 256 * leNat bs) / 256 = leNat bs := by omega
    have h2 : BitVec.ofNat 8 (b.toNat + 256 * leNat bs) = b := by
      apply BitVec.eq_of_toNat_eq
      simp only [BitVec.toNat_ofNat]
      omega
    simp only [List.length_cons, leNat, leBytes, h1, h2, ih]

/-- A field read from exactly its bytes followed by a rest. -/
theorem takeField_append {n : Nat} (bs rest : List Byte) (h : bs.length = n) :
    takeField n (bs ++ rest) = some (bs, rest) := by
  subst h
  simp [takeField]

/-- Everything reading a field can do: answer the first `n` bytes and the rest, or run out of bytes. -/
theorem takeField_eq_some {n : Nat} {bs f rest : List Byte} :
    takeField n bs = some (f, rest) ↔ bs = f ++ rest ∧ f.length = n := by
  constructor
  · intro h
    unfold takeField at h
    split at h
    · cases h
      exact ⟨(List.take_append_drop n bs).symm, by simpa using ‹n ≤ bs.length›⟩
    · cases h
  · rintro ⟨rfl, h⟩
    exact takeField_append f rest h

theorem takeField_eq_none {n : Nat} {bs : List Byte} : takeField n bs = none ↔ bs.length < n := by
  simp [takeField]

/-! ## The decoder, by opcode -/

@[simp] theorem commandLength_enc (tl : List Byte) : commandLength (opEnc :: tl) = 5 := rfl

@[simp] theorem commandLength_start (tl : List Byte) : commandLength (opStart :: tl) = 9 := rfl

@[simp] theorem commandLength_group (tl : List Byte) : commandLength (opGroup :: tl) = 5 := rfl

@[simp] theorem commandLength_xform (tl : List Byte) :
    commandLength (opXform :: tl) = 13 + leNat ((tl.drop 8).take 4) := rfl

@[simp] theorem decode_enc (tl : List Byte) : decode (opEnc :: tl) = finishCommand opEnc (decodeEnc tl) := rfl

@[simp] theorem decode_start (tl : List Byte) : decode (opStart :: tl) = finishCommand opStart (decodeStart tl) :=
  rfl

@[simp] theorem decode_group (tl : List Byte) : decode (opGroup :: tl) = finishCommand opGroup (decodeGroup tl) :=
  rfl

@[simp] theorem decode_xform (tl : List Byte) : decode (opXform :: tl) = finishCommand opXform (decodeXform tl) :=
  rfl

/-- Everything the decoder can do with a byte string that is not empty. -/
theorem decode_cases (op : Byte) (tl : List Byte) :
    (op ∉ [opEnc, opStart, opGroup, opXform] ∧ decode (op :: tl) = .reserved op tl) ∨
      (op = opEnc ∧ decode (op :: tl) = finishCommand op (decodeEnc tl)) ∨
      (op = opStart ∧ decode (op :: tl) = finishCommand op (decodeStart tl)) ∨
      (op = opGroup ∧ decode (op :: tl) = finishCommand op (decodeGroup tl)) ∨
      (op = opXform ∧ decode (op :: tl) = finishCommand op (decodeXform tl)) := by
  by_cases h1 : op = opEnc
  · subst h1; exact .inr (.inl ⟨rfl, rfl⟩)
  by_cases h2 : op = opStart
  · subst h2; exact .inr (.inr (.inl ⟨rfl, rfl⟩))
  by_cases h3 : op = opGroup
  · subst h3; exact .inr (.inr (.inr (.inl ⟨rfl, rfl⟩)))
  by_cases h4 : op = opXform
  · subst h4; exact .inr (.inr (.inr (.inr ⟨rfl, rfl⟩)))
  exact .inl ⟨by simp [h1, h2, h3, h4], by simp only [decode, h1, h2, h3, h4, if_false]⟩

/-- The address field holds an address that fits it. -/
theorem sext64_addressField (a : Int) (h : addressFits a = true) : sext64 (leNat (addressField a)) = a := by
  simp only [addressFits, decide_eq_true_eq] at h
  have hlt : (BitVec.ofInt 64 a).toNat < 256 ^ 8 := (BitVec.ofInt 64 a).isLt
  simp only [addressField, leNat_leBytes, Nat.mod_eq_of_lt hlt, sext64, BitVec.ofNat_toNat, BitVec.setWidth_eq]
  rw [BitVec.toInt_ofInt, Int.bmod_eq_of_le] <;> omega

end Sys2Proof
end

