-- ==== Sys2Proof/Laws/PerInstr.lean ====
section
/-! SUPPORT. Statements for all commands, one lemma per constructor. -/

namespace Sys2Proof.Laws.EncodedLength

/-- A well-formed command's binary form begins with its opcode and has the length R57's table gives it
(30_encoding.md R53 to R57). -/
def Statement (i : Instr) : Prop :=
  i.wellFormed = true → (encode i).head? = some (opcodeOf i) ∧ (encode i).length = commandLength (encode i)

theorem enc (w : Word) : Statement (.enc w) := by
  intro _
  simp [encode, opcodeOf, operandBytes]

theorem start (a : Int) : Statement (.start a) := by
  intro _
  simp [encode, opcodeOf, operandBytes, addressField]

theorem group (b0 b1 b2 b3 : Byte) : Statement (.group b0 b1 b2 b3) := by
  intro _
  simp [encode, opcodeOf, operandBytes]

theorem xform (image : List Byte) (a : Int) : Statement (.xform image a) := by
  intro h
  simp only [Instr.wellFormed, lengthFits, Bool.and_eq_true, decide_eq_true_eq] at h
  have hl : leNat ((((addressField a ++ (leBytes 4 image.length ++ image))).drop 8).take 4) = image.length := by
    rw [List.drop_append_of_le_length (by simp [addressField]), List.drop_of_length_le (by simp [addressField]),
      List.nil_append, List.take_left' (by simp), leNat_leBytes]
    exact Nat.mod_eq_of_lt h.2
  simp only [encode, opcodeOf, operandBytes, commandLength_xform, hl]
  simp [addressField]
  omega

end Sys2Proof.Laws.EncodedLength
end

