-- ==== Sys2Proof/Laws/Step.lean ====
section
/-! SUPPORT. What a command, a fetch and a step can do, said once. -/

namespace Sys2Proof.Machine

/-! ## One command -/

/-- Everything a command can do to the state: answer with a response and nothing else, seed the counter, or run one
group step. -/
theorem exec_cases (i : Instr) (s : State) :
    (∃ r, exec i s = .next (s.respond r)) ∨
      (∃ a, i = .start a ∧ 0 ≤ a ∧ exec i s = .next ((s.seed (startOffset a)).answer .nothing)) ∨
      (∃ b0 b1 b2 b3 c, i = .group b0 b1 b2 b3 ∧ s.cnt = some c ∧
        exec i s = .next (((s.emit (groupStep c ⟨b0, b1, b2, b3⟩).2).seed
          (groupStep c ⟨b0, b1, b2, b3⟩).1).answer .nothing)) := by
  cases i with
  | enc w => exact .inl ⟨_, assertCodes_checkCodes [w] _⟩
  | start a =>
    rcases execStart_cases a s with ⟨-, h⟩ | ⟨ha, h⟩
    · exact .inl ⟨_, h⟩
    · exact .inr (.inl ⟨a, rfl, ha, h⟩)
  | group b0 b1 b2 b3 =>
    rcases execGroup_cases b0 b1 b2 b3 s with ⟨-, h⟩ | ⟨c, hc, h⟩
    · exact .inl ⟨_, h⟩
    · exact .inr (.inr ⟨b0, b1, b2, b3, c, rfl, hc, h⟩)
  | xform image a =>
    rcases execXform_cases image a s with ⟨-, h⟩ | ⟨-, -, h⟩ | ⟨-, -, h⟩ <;> exact .inl ⟨_, h⟩

/-! ## The inbox -/

@[simp] theorem requeue_nil (q : List Request) : requeue [] q = q := rfl

theorem requeue_of_ne_nil {rest : List Byte} (h : rest ≠ []) (q : List Request) :
    requeue rest q = .bytes rest :: q := by
  cases rest with
  | nil => exact absurd rfl h
  | cons b bs => rfl

theorem requeue_append (rest : List Byte) (q q' : List Request) : requeue rest (q ++ q') = requeue rest q ++ q' := by
  cases rest <;> rfl

theorem requeue_eq_ite (rest : List Byte) (q : List Request) :
    requeue rest q = if rest = [] then q else .bytes rest :: q := by
  cases rest <;> simp [requeue]

@[simp] theorem fetch_nil {s : State} (h : s.inbox = []) : fetch s = .idle s := by simp [fetch, h]

theorem fetch_bytes {s : State} {bs : List Byte} {q : List Request} (h : s.inbox = .bytes bs :: q) :
    fetch s = fetchBytes bs q s := by simp [fetch, h]

theorem fetch_command {s : State} {i : Instr} {q : List Request} (h : s.inbox = .command i :: q) :
    fetch s = .run i (s.setInbox q) := by simp [fetch, h]

theorem fetch_reset {s : State} {q : List Request} (h : s.inbox = .reset :: q) :
    fetch s = .resetNow (s.setInbox q) := by simp [fetch, h]

/-- Everything a fetch can do: it changes only the inbox. -/
theorem fetch_cases (s : State) :
    ∃ q, fetch s = .idle (s.setInbox q) ∨ (∃ op, fetch s = .illegal op (s.setInbox q)) ∨
      (∃ i, fetch s = .run i (s.setInbox q)) ∨ fetch s = .resetNow (s.setInbox q) := by
  rcases h : s.inbox with _ | ⟨bs | i | _, q⟩
  · exact ⟨[], .inl (by rw [fetch_nil h]; cases s; cases h; rfl)⟩
  · rw [fetch_bytes h]
    cases hd : decode bs with
    | waiting => exact ⟨q, .inl (by simp [fetchBytes, hd])⟩
    | reserved op rest => exact ⟨requeue rest q, .inr (.inl ⟨op, by simp [fetchBytes, hd]⟩)⟩
    | truncated op => exact ⟨q, .inr (.inl ⟨op, by simp [fetchBytes, hd]⟩)⟩
    | command i rest => exact ⟨requeue rest q, .inr (.inr (.inl ⟨i, by simp [fetchBytes, hd]⟩))⟩
  · exact ⟨q, .inr (.inr (.inl ⟨i, fetch_command h⟩))⟩
  · exact ⟨q, .inr (.inr (.inr (fetch_reset h)))⟩

/-- Everything a step can do, after taking the oldest request: wait, answer ERR_ILLEGAL_OP, run a command, or reset. -/
theorem step_cases (s : State) :
    ∃ q, step s = .next (s.setInbox q) ∨
      (∃ op, step s = .next ((s.setInbox q).raise (.illegalOp op))) ∨
      (∃ i, fetch s = .run i (s.setInbox q) ∧ step s = exec i (s.setInbox q)) ∨
      (fetch s = .resetNow (s.setInbox q) ∧ step s = .next (s.setInbox q).resetEvent) := by
  obtain ⟨q, h | ⟨op, h⟩ | ⟨i, h⟩ | h⟩ := fetch_cases s
  · exact ⟨q, .inl (by simp [step, h])⟩
  · exact ⟨q, .inr (.inl ⟨op, by simp [step, h]⟩)⟩
  · exact ⟨q, .inr (.inr (.inl ⟨i, h, by simp [step, h]⟩))⟩
  · exact ⟨q, .inr (.inr (.inr ⟨h, by simp [step, h]⟩))⟩

end Sys2Proof.Machine
end

