-- ==== Sys2Proof/Tests/Slice0.lean ====
section
/-! SUPPORT. The model's own tests. Expected values are those of 95_test_vectors.md (its section is named at each
test), or words written out by hand from 30_encoding.md; the witnesses show that the hypotheses of the statements
can be met. -/

namespace Sys2Proof.Tests

open Sys2Proof Sys2Proof.Machine

/-- The next state of an outcome. -/
def nextOf : Host.Outcome State Fault Refusal → Option State
  | .next t => some t
  | .fault _ => none
  | .refused _ => none

/-- A state with this counter and this inbox, and nothing else. -/
def mk (cnt : Option Nat) (inbox : List Request) : State := ⟨cnt, [], inbox, []⟩

/-! ## Well-formedness: a term each check refuses, and the last one it lets pass -/

theorem test_wf_start_too_large : (Instr.start (2 ^ 63)).wellFormed = false := by decide

theorem test_wf_start_too_small : (Instr.start (-(2 ^ 63) - 1)).wellFormed = false := by decide

theorem test_wf_start_ends : (Instr.start (2 ^ 63 - 1)).wellFormed = true ∧ (Instr.start (-(2 ^ 63))).wellFormed = true := by
  decide

theorem test_wf_xform_address : (Instr.xform [] (2 ^ 63)).wellFormed = false := by decide

theorem test_wf_xform_length : (Instr.xform (List.replicate (2 ^ 32) 0) 0).wellFormed = false := by
  simp only [Instr.wellFormed, lengthFits, List.length_replicate]
  decide

/-! ## Decoding: words written out from R53 to R56, with the fields at their bit positions -/

/-- R53: `w` at bits 39:8 above `op = 0x01`; the word of section 2.8. -/
theorem test_decode_enc : decodeTableWord 40 0xDEADBEEF01 = some (.enc 0xDEADBEEF#32) := by decide

/-- R54: `a` at bits 71:8 above `op = 0x02`, two's complement; 0x1019 and -1 of section 2.8. -/
theorem test_decode_start : decodeTableWord 72 0x0000000000001019_02 = some (.start 0x1019) ∧
    decodeTableWord 72 0xFFFFFFFFFFFFFFFF_02 = some (.start (-1)) := by decide

/-- R55: `b0` at bits 15:8, `b3` at bits 39:32, above `op = 0x03`. -/
theorem test_decode_group : decodeTableWord 40 0xDEADBEEF03 = some (.group 0xEF#8 0xBE#8 0xAD#8 0xDE#8) := by decide

/-- R56: `a` at bits 71:8, `L` at bits 103:72, above `op = 0x04`; with `L = 0` and with `L = 4` and its data. -/
theorem test_decode_xform : decodeTableWord 104 0x00000000_0000000000000014_04 = some (.xform [] 0x14) ∧
    decodeTableWord 136 0x04030201_00000004_0000000000000005_04 =
      some (.xform [0x01#8, 0x02#8, 0x03#8, 0x04#8] 5) := by decide

/-- Section 2.8: the reserved and the truncated commands. -/
theorem test_decode_illegal : decode [0x07#8] = .reserved 0x07#8 [] ∧
    decode [0x01#8, 0xEF#8, 0xBE#8] = .truncated 0x01#8 ∧ decode [] = .waiting := by decide

/-- The encodings of program P4, steps 1 and 2. -/
theorem test_encode : encode (.start 0x14) = [0x02#8, 0x14#8, 0#8, 0#8, 0#8, 0#8, 0#8, 0#8, 0#8] ∧
    encode (.xform [0x80#8, 0xFF#8] (-2)) =
      [0x04#8, 0xFE#8, 0xFF#8, 0xFF#8, 0xFF#8, 0xFF#8, 0xFF#8, 0xFF#8, 0xFF#8, 0x02#8, 0#8, 0#8, 0#8, 0x80#8, 0xFF#8] := by
  decide

/-! ## One step of each command -/

/-- Section 2.2, WC-19 and WC-11: a word with every mask in play, and one where only P0, P2, P3, P5, P6 are set. -/
theorem test_enc : (nextOf (exec (.enc 0xDEADBEEF#32) State.reset)).map State.responses =
    some [.ok (.checkByte 0x63#8)] ∧ checkCode 0x04030201#32 = 0x6D#8 := by decide +kernel

/-- Section 2.2, WC-29: a nonzero word whose check code is 0. -/
theorem test_enc_zero_code : checkCode 0xF0F0F0F0#32 = 0x00#8 := by decide +kernel

/-- Section 2.4: `START 0x201E` from 40 gives 30. -/
theorem test_start : (nextOf (exec (.start 0x201E) (mk (some 40) []))).map State.cnt = some (some 30) := by decide

/-- Section 2.4: `START -1` leaves the counter. -/
theorem test_start_negative : nextOf (exec (.start (-1)) (mk (some 5) [])) =
    some ⟨some 5, [], [], [.error (.address (-1))]⟩ := by decide

/-- Section 2.5: the filler comes exactly at 25. -/
theorem test_group_filler : nextOf (exec (.group 0xEF#8 0xBE#8 0xAD#8 0xDE#8) (mk (some 25) [])) =
    some ⟨some 0, [0xEF#8, 0xBE#8, 0xAD#8, 0xDE#8, 0x63#8, 0x00#8, 0x00#8], [], [.ok .nothing]⟩ := by decide +kernel

/-- Section 2.5: from 30 the counter overshoots, and unseeded nothing is emitted. -/
theorem test_group_overshoot : (nextOf (exec (.group 0xFF#8 0xFF#8 0xFF#8 0xFF#8) (mk (some 30) []))).map
      (fun t => (t.cnt, t.out)) = some (some 35, [0xFF#8, 0xFF#8, 0xFF#8, 0xFF#8, 0x18#8]) ∧
    nextOf (exec (.group 1#8 2#8 3#8 4#8) (mk none [])) = some ⟨none, [], [], [.error .notStarted]⟩ := by
  decide +kernel

/-- Section 2.6, XF-13: a filler in the middle of the output. -/
theorem test_xform : (nextOf (exec (.xform [0x00#8, 0x00#8, 0x00#8, 0x80#8, 0xFF#8, 0xFF#8, 0xFF#8, 0xFF#8, 0x01#8, 0x01#8,
      0x01#8, 0x01#8] 0x14) State.reset)).map State.responses =
    some [.ok (.bytes [0x00#8, 0x00#8, 0x00#8, 0x80#8, 0x26#8, 0xFF#8, 0xFF#8, 0xFF#8, 0xFF#8, 0x18#8, 0x00#8, 0x00#8, 0x01#8,
      0x01#8, 0x01#8, 0x01#8, 0x06#8])] := by decide +kernel

/-- Section 2.6, XF-17 and XF-18: the length is checked before the address. -/
theorem test_xform_errors : (nextOf (exec (.xform [0#8, 0#8, 0#8, 0#8, 0#8, 0#8] (-1)) State.reset)).map State.responses =
      some [.error (.inputLength 6)] ∧
    (nextOf (exec (.xform [0#8, 0#8, 0#8, 0#8] (-1)) State.reset)).map State.responses =
      some [.error (.address (-1))] := by decide

/-! ## One step of the machine -/

/-- A table word placed on the reset state runs at the next step. -/
theorem test_step_runs_word : (nextOf (step (State.reset.withFetchWord 40 0x0000000101))).map State.responses =
      some [.ok (.checkByte 0x43#8)] ∧
    (nextOf (step (State.reset.withFetchWord 72 0x02))).map State.cnt = some (some 0) := by decide +kernel

/-- R57 case 2: one byte of a reserved opcode is consumed, the rest stays. -/
theorem test_step_reserved : nextOf (step (mk none [.bytes [0x07#8, 0x01#8]])) =
    some ⟨none, [], [.bytes [0x01#8]], [.error (.illegalOp 0x07#8)]⟩ := by decide

/-- R103: a reset event. -/
theorem test_step_reset : nextOf (step ⟨some 5, [1#8], [.reset], []⟩) = some State.reset := by decide

/-- R59 with section 2.4's `START -1`, and a number out of range. -/
theorem test_assemble : assemble ['S', 'T', 'A', 'R', 'T', ' ', '-', '1'] = some (.start (-1)) ∧
    assemble ['G', 'R', 'O', 'U', 'P', ' ', '2', '5', '6', ',', '0', ',', '0', ',', '0'] = none := by decide

/-- R40, R85, section 2.7: filler pairs from offset 25 after 13 groups, and the place of group 6 from offset 5. -/
theorem test_layout_formulas : fillersBefore 25 13 = 3 ∧ fillersBefore 30 13 = 0 ∧ groupIndex 5 6 = 32 := by decide

/-! ## Witnesses: the hypotheses of each statement can be met -/

theorem witness_AfterResetGroupNeedsStart : (mk (some 7) [.reset]).inbox = .reset :: [] ∧ isPure (.enc 0) = true ∧
    (mk none []).cnt = none ∧ ∀ a, Instr.start a ∈ [Instr.start (-1), .group 0 0 0 0] → a < 0 :=
  ⟨rfl, rfl, rfl, fun a h => by simp only [List.mem_cons, Instr.start.injEq, reduceCtorEq, List.not_mem_nil, or_false] at h; omega⟩

theorem witness_ResetEventKeepsChannels : (mk (some 7) [.reset, .command (.start 3)]).inbox =
    .reset :: [.command (.start 3)] := rfl

theorem witness_StepRunsTheDecodedCommand :
    (mk none [.bytes [0x01#8, 0#8, 0#8, 0#8, 0#8, 0x07#8]]).inbox = .bytes [0x01#8, 0#8, 0#8, 0#8, 0#8, 0x07#8] :: [] ∧
    decode [0x01#8, 0#8, 0#8, 0#8, 0#8, 0x07#8] = .command (.enc 0) [0x07#8] ∧
    (mk none [.command (.start 3)]).inbox = .command (.start 3) :: [] ∧
    decode [0x05#8, 0x01#8] = .reserved 0x05#8 [0x01#8] ∧ decode [0x04#8] = .truncated 0x04#8 := by decide

theorem witness_NothingToDecodeWaits : (mk none []).inbox = [] ∧ (mk none [.bytes []]).inbox = .bytes [] :: [] := by
  decide

/-- The opcodes where the clauses meet (0x00, 0x01, 0x04, 0x05, 0xFF), and strings one byte short and just long
enough. -/
theorem witness_DecoderIsTotalOnByteStrings :
    ((0x00#8 = 0x00#8 ∨ 5 ≤ (0x00#8).toNat) ∧ 5 ≤ (0x05#8).toNat ∧ 5 ≤ (0xFF#8).toNat) ∧
    ((1 ≤ (0x01#8).toNat ∧ (0x01#8).toNat ≤ 4) ∧ [0x01#8, 0#8, 0#8, 0#8].length < commandLength [0x01#8, 0#8, 0#8, 0#8]) ∧
    commandLength [0x01#8, 0#8, 0#8, 0#8, 0#8] ≤ [0x01#8, 0#8, 0#8, 0#8, 0#8].length ∧
    ((1 ≤ (0x04#8).toNat ∧ (0x04#8).toNat ≤ 4) ∧
      (encode (.xform [5#8] 0)).dropLast.length < commandLength (encode (.xform [5#8] 0)).dropLast) ∧
    commandLength (encode (.xform [5#8] 0)) ≤ (encode (.xform [5#8] 0)).length ∧
    decode [0x02#8, 9#8] = .truncated 0x02#8 ∧ (List.replicate 8 0x00#8).length = 8 := by decide

theorem witness_DecodeOfEncode : (Instr.start (-(2 ^ 63))).wellFormed = true ∧ (Instr.start (2 ^ 63 - 1)).wellFormed = true ∧
    (Instr.xform [1#8, 2#8, 3#8] (-1)).wellFormed = true ∧ (Instr.enc 5).wellFormed = true ∧
    (Instr.group 1 2 3 4).wellFormed = true := by decide

theorem witness_EncodeOfDecoded : decode [0x03#8, 1#8, 2#8, 3#8, 4#8, 0xFF#8] = .command (.group 1 2 3 4) [0xFF#8] := by
  decide

theorem witness_OperandAssembly : (0 : Int) ≤ (0x7FFFFFFFFFFFFFFF#64).toInt ∧ (0 : Int) ≤ (0#64).toInt ∧
    [9#8, 9#8].length = (0#8 ++ 0#8 ++ 0#8 ++ 2#8).toNat ∧ ([] : List Byte).length = (0#8 ++ 0#8 ++ 0#8 ++ 0#8).toNat := by
  decide

theorem witness_LaterRequestsDoNotDisturbAStep : (mk none [.command (.start 3)]).inbox ≠ [] ∧
    ∃ t, step (mk none [.command (.start 3)]) = .next t := ⟨by decide, _, rfl⟩

theorem witness_AssembleOfRender : (Instr.start (-(2 ^ 63))).wellFormed = true ∧
    assemble (render (.start (-(2 ^ 63)))) = some (.start (-(2 ^ 63))) ∧ (Instr.xform [] 0).wellFormed = true := by decide

theorem witness_SingleErrorIsLocated : codewordPosition (31 : Fin 32).val = codewordPosition (31 : Fin 32).val ∧
    (CodewordBit.locator 5).position = (CodewordBit.locator 5).position := ⟨rfl, rfl⟩

theorem witness_DoubleErrorIsDetected : (0 : Fin 32) ≠ 31 ∧ CodewordBit.data 3 ≠ .locator 3 ∧ CodewordBit.locator 5 ≠ .overall ∧
    (0#32) ≠ 1#32 := by decide

theorem witness_StartSeedsTheCounter : (0 : Int) ≤ 0 ∧ (-1 : Int) < 0 ∧ (2 : Int) ^ 64 ≤ 2 ^ 64 + 5 ∧
    ∃ t u, exec (.start (-1)) (mk (some 7) []) = .next t ∧ exec (.start 0) t = .next u :=
  ⟨by decide, by decide, by decide, _, _, rfl, rfl⟩

theorem witness_GroupStepTestsExactly30 : 25 + 5 = 30 ∧ 24 + 5 ≠ 30 ∧ 30 + 5 ≠ 30 := by decide

theorem witness_GroupEncodesOneGroup : (mk (some 0) []).cnt = some 0 ∧ (mk none []).cnt = none ∧
    (mk (some 25) []).cnt = some 25 ∧ ((mk (some 30) []).cnt = some 30 ∨ (mk (some 30) []).cnt = some 31) ∧
    ((mk (some 31) []).cnt = some 30 ∨ (mk (some 31) []).cnt = some 31) := by decide

/-- A step that appends a group with filler, one that resets, one that changes nothing. -/
theorem witness_FillerOnlyAfterTheGroupThatReaches30 :
    (nextOf (step (mk (some 25) [.command (.group 0 0 0 0)]))).map State.out =
      some [0x00#8, 0x00#8, 0x00#8, 0x00#8, 0x00#8, 0x00#8, 0x00#8] ∧
    (nextOf (step ⟨some 5, [1#8], [.reset], []⟩)).map State.out = some [] ∧
    (nextOf (step ⟨some 5, [1#8], [], []⟩)).map State.out = some [1#8] := by decide +kernel

theorem witness_AlignedCounterCycles : 31 < 32 ∧ 25 ∈ alignedOffsets ∧ 30 ∉ alignedOffsets ∧ 5 ≤ 5 ∧ 0 ≤ 5 := by decide

theorem witness_OvershootEmitsNoFiller : (1 < 32 ∧ 1 ∉ alignedOffsets) ∧ (31 < 32 ∧ 31 ∉ alignedOffsets) ∧
    (0 : Int) ≤ 30 ∧ startOffset 30 ∉ alignedOffsets := by decide

theorem witness_RegionsConcatenate : ∀ p ∈ [((0x1019 : Int), [Group.mk 1 2 3 4]), (0x201E, [])], 0 ≤ p.1 := by decide

theorem witness_StreamingEqualsXform : [1#8, 2#8, 3#8, 4#8].length ≠ 0 ∧ [1#8, 2#8, 3#8, 4#8].length % 4 = 0 ∧ (0 : Int) ≤ 0 := by
  decide

theorem witness_XformTransformsTheImage : ([1#8, 2#8, 3#8, 4#8].length ≠ 0 ∧ [1#8, 2#8, 3#8, 4#8].length % 4 = 0) ∧
    (([] : List Byte).length = 0 ∨ ([] : List Byte).length % 4 ≠ 0) ∧ ([1#8].length = 0 ∨ [1#8].length % 4 ≠ 0) ∧
    (-1 : Int) < 0 ∧ (List.replicate 24 0x00#8).length = 24 ∧ (List.replicate 28 0x00#8).length = 28 ∧
    (25 : Int) % 32 = 25 ∧ ((30 : Int) % 32).toNat ∉ alignedOffsets := by decide

theorem witness_XformChecksTheLengthFirst : ([1#8, 2#8, 3#8].length = 0 ∨ [1#8, 2#8, 3#8].length % 4 ≠ 0) ∧
    ([1#8, 2#8, 3#8, 4#8].length ≠ 0 ∧ [1#8, 2#8, 3#8, 4#8].length % 4 = 0 ∧ (-1 : Int) < 0) := by decide

theorem witness_AddressMattersOnlyModulo32 : (-1 : Int) < 0 ∧ (0 : Int) ≤ 31 ∧ (0 : Int) ≤ 63 ∧ (31 : Int) % 32 = 63 % 32 ∧
    [1#8, 2#8, 3#8, 4#8].length ≠ 0 ∧ [1#8, 2#8, 3#8, 4#8].length % 4 = 0 := by decide

theorem witness_XformIsPure : (0 : Int) ≤ 0 ∧ (0 : Int) ≤ 32 ∧ (0 : Int) % 32 = 32 % 32 := by decide

theorem witness_InputIsReadInOrder : 0 < [1#8, 2#8, 3#8, 4#8].length / 4 ∧ [1#8, 2#8, 3#8, 4#8].length % 4 = 0 := by decide

theorem witness_OutputLength : (0 : Int) ≤ 30 ∧ ([] : List Byte).length % 4 = 0 := by decide

/-- Index 5 of the output from offset 25 is in no group. -/
theorem witness_OutputContent : (0 : Int) ≤ 25 ∧ [0#8, 0#8, 0#8, 0#8].length % 4 = 0 ∧ 0 < [0#8, 0#8, 0#8, 0#8].length / 4 ∧
    5 < (transform [0#8, 0#8, 0#8, 0#8] 25).length ∧
    (∀ g < [0#8, 0#8, 0#8, 0#8].length / 4, 5 < groupIndex 25 g ∨ groupIndex 25 g + 5 ≤ 5) := by decide +kernel

theorem witness_AlignedOutputMeetsTheBlockMap : (0 : Int) ≤ 0x1019 ∧ (0x1019 : Int) % 32 = 5 * (5 : Nat) ∧ 5 ≤ 5 ∧
    (0 : Int) % 32 = 5 * (0 : Nat) ∧ 6 < (transform [0#8, 0#8, 0#8, 0#8] 0x1019).length ∧
    (∀ g < [0#8, 0#8, 0#8, 0#8].length / 4, 6 < 5 * g + 2 * ((g + 5) / 6) ∨ 5 * g + 2 * ((g + 5) / 6) + 5 ≤ 6) := by
  decide +kernel

theorem witness_OutputEndsWithTheLastGroup : ([] : List Byte).length % 4 = 0 ∧ [1#8, 2#8, 3#8, 4#8].length = 4 ∧
    (0 : Int) ≤ 25 := by decide

theorem witness_CounterCarriesOverBetweenGroups : (mk (some 20) []).cnt = some 20 := rfl

theorem witness_CounterLegalValuesAndSaturation : (0 : Int) ≤ 0x1019 ∧ 25 ∈ alignedOffsets ∧ 31 < 32 ∧ 31 ∉ alignedOffsets ∧
    30 < 31 ∧ 30 < 286 ∧ (List.replicate 50 (Group.mk 0 0 0 0)).length = 50 := by decide

theorem witness_StatusCodeTable : ∃ t, fetch (mk none [.bytes [0x07#8]]) = .illegal 0x07#8 t := ⟨_, rfl⟩

theorem witness_ErrorsAreNotSticky : ∃ t u, exec (.start (-1)) (mk none []) = .next t ∧
    t.responses = (mk none []).responses ++ [.error (.address (-1))] ∧ exec (.start 5) (mk none []) = .next u :=
  ⟨_, _, rfl, rfl, rfl⟩

/-- A next state for each command, GROUP unseeded among them. -/
theorem witness_CommandFrames : (nextOf (exec (.enc 1) (mk none []))).isSome ∧
    (nextOf (exec (.xform [0#8, 0#8, 0#8, 0#8] 0) (mk none []))).isSome ∧ (nextOf (exec (.start (-1)) (mk none []))).isSome ∧
    (nextOf (exec (.group 0 0 0 0) (mk none []))).isSome := by decide +kernel

theorem witness_OutputIsAppendOnly : ((nextOf (exec (.group 1 0 0 0) (mk (some 0) []))).map State.out) =
    some [0x01#8, 0x00#8, 0x00#8, 0x00#8, 0x43#8] ∧ 0 ≤ (mk (some 0) []).out.length := by decide +kernel

/-- A step of each of the three kinds that changes the counter. -/
theorem witness_CounterWriters : (nextOf (step (mk (some 5) [.reset]))).map State.cnt = some none ∧
    (nextOf (step (mk (some 5) [.command (.start 6)]))).map State.cnt = some (some 6) ∧
    (nextOf (step (mk (some 5) [.command (.group 0 0 0 0)]))).map State.cnt = some (some 10) := by decide +kernel

theorem witness_IdempotenceAndPurity : isPure (.xform [] 0) = true ∧ (0 : Int) ≤ 5 ∧ (5 : Int) % 32 = 37 % 32 ∧
    (mk (some 25) []).cnt ≠ none ∧ (nextOf (exec (groupCommand ⟨0, 0, 0, 0⟩) (mk (some 25) []))).isSome ∧
    (∃ t u, exec (.start 5) (mk none []) = .next t ∧ exec (.start 37) t = .next u) ∧
    (∃ t, exec (.xform [] 0) (mk none []) = .next t) :=
  ⟨by decide, by decide, by decide, by decide, by decide +kernel, ⟨_, _, rfl, rfl⟩, _, rfl⟩

/-- The invariant can be met and stepped from, with a group in the stream and responses given. -/
theorem witness_StepKeepsTheInvariant :
    (State.mk (some 0) (groupBytes ⟨1, 2, 3, 4⟩) [.command (.start 3)] [.ok .nothing, .error (.address (-1))]).Inv ∧
    ∃ t, step (State.mk (some 0) (groupBytes ⟨1, 2, 3, 4⟩) [.command (.start 3)] [.ok .nothing, .error (.address (-1))]) =
      .next t := by
  refine ⟨⟨GroupStream.group [] ⟨1, 2, 3, 4⟩ .empty, ?_⟩, _, rfl⟩
  simp [Response.Legal]

theorem witness_AlignedCounterIsKept : (∀ c, (mk (some 25) []).cnt = some c → c ∈ alignedOffsets) ∧
    (∀ a, Instr.start 0x1019 = .start a → 0 ≤ a → (a % 32).toNat ∈ alignedOffsets) ∧
    ∃ t, exec (.start 0x1019) (mk (some 25) []) = .next t := by
  refine ⟨fun c h => ?_, fun a h _ => ?_, _, rfl⟩
  · cases h; decide
  · cases h; decide

theorem witness_OnlyCntAndOutAreState : (mk (some 5) []).cnt = (mk (some 5) [.reset]).cnt ∧
    (mk (some 5) []).out = (mk (some 5) [.reset]).out := by decide

end Sys2Proof.Tests
end

section
/-! PROOF. A command as a function of the counter it finds: everything it answers, emits and leaves in the counter. -/

namespace Sys2Proof.Machine

/-- The one response of a command, from the counter it finds (60_exceptions.md R89). -/
def responseTo : Instr → Option Nat → Response
  | .enc w, _ => .ok (.checkByte (checkCode w))
  | .start a, _ => if a < 0 then .error (.address a) else .ok .nothing
  | .group _ _ _ _, none => .error .notStarted
  | .group _ _ _ _, some _ => .ok .nothing
  | .xform image a, _ =>
    if imageLengthOk image = false then .error (.inputLength image.length)
    else if a < 0 then .error (.address a)
    else .ok (.bytes (transform image a))

/-- The counter a command leaves, from the counter it finds (10_state.md R17). -/
def cntAfter : Instr → Option Nat → Option Nat
  | .start a, cnt => if a < 0 then cnt else some (startOffset a)
  | .group b0 b1 b2 b3, cnt => cnt.map fun c => (groupStep c ⟨b0, b1, b2, b3⟩).1
  | _, cnt => cnt

/-- The bytes a command appends to the output stream, from the counter it finds (10_state.md R19). -/
def emittedBy : Instr → Option Nat → List Byte
  | .group b0 b1 b2 b3, some c => (groupStep c ⟨b0, b1, b2, b3⟩).2
  | _, _ => []

/-- The state a command leaves: the inbox as it was, one response more, and the pair of R13 as the three functions
above say. -/
def stateAfter (i : Instr) (s : State) : State :=
  { s with
    cnt := cntAfter i s.cnt
    out := s.out ++ emittedBy i s.cnt
    responses := s.responses ++ [responseTo i s.cnt] }

@[simp] theorem stateAfter_cnt (i : Instr) (s : State) : (stateAfter i s).cnt = cntAfter i s.cnt := rfl
@[simp] theorem stateAfter_out (i : Instr) (s : State) : (stateAfter i s).out = s.out ++ emittedBy i s.cnt := rfl
@[simp] theorem stateAfter_inbox (i : Instr) (s : State) : (stateAfter i s).inbox = s.inbox := rfl
@[simp] theorem stateAfter_responses (i : Instr) (s : State) :
    (stateAfter i s).responses = s.responses ++ [responseTo i s.cnt] := rfl

/-- A command that only answers leaves the pair of R13 alone. -/
theorem stateAfter_eq_respond {i : Instr} {s : State} {r : Response} (hcnt : cntAfter i s.cnt = s.cnt)
    (hout : emittedBy i s.cnt = []) (hr : responseTo i s.cnt = r) : stateAfter i s = s.respond r := by
  simp [stateAfter, State.respond, hcnt, hout, hr]

/-- Every command, in every state, answers the next state `stateAfter` writes out. -/
theorem exec_eq_stateAfter (i : Instr) (s : State) : exec i s = .next (stateAfter i s) := by
  cases i with
  | enc w =>
    have h : exec (.enc w) s = .next (s.answer (.checkByte (checkCode w))) := assertCodes_checkCodes [w] _
    exact h.trans (congrArg _ (stateAfter_eq_respond (i := .enc w) rfl rfl rfl).symm)
  | start a =>
    rcases execStart_cases a s with ⟨ha, h⟩ | ⟨ha, h⟩ <;> refine h.trans (congrArg _ ?_)
    · exact (stateAfter_eq_respond (by simp [cntAfter, ha]) rfl (by simp [responseTo, ha])).symm
    · simp [stateAfter, cntAfter, emittedBy, responseTo, not_lt.mpr ha, State.seed, State.answer, State.respond]
  | group b0 b1 b2 b3 =>
    rcases execGroup_cases b0 b1 b2 b3 s with ⟨hc, h⟩ | ⟨c, hc, h⟩ <;> refine h.trans (congrArg _ ?_)
    · exact (stateAfter_eq_respond (by simp [cntAfter, hc]) (by simp [emittedBy, hc])
        (by simp [responseTo, hc])).symm
    · simp [stateAfter, cntAfter, emittedBy, responseTo, hc, State.emit, State.seed, State.answer, State.respond]
  | xform image a =>
    rcases execXform_cases image a s with ⟨hl, h⟩ | ⟨hl, ha, h⟩ | ⟨hl, ha, h⟩ <;>
      refine h.trans (congrArg _ (stateAfter_eq_respond rfl rfl ?_).symm)
    · simp [responseTo, hl]
    · simp [responseTo, hl, ha]
    · simp [responseTo, hl, not_lt.mpr ha]

/-- The next state of a command, read off an execution. -/
theorem eq_stateAfter_of_exec {i : Instr} {s t : State} (h : exec i s = .next t) : t = stateAfter i s := by
  rw [exec_eq_stateAfter] at h
  cases h
  rfl

/-- A run begins with its first command's next state. -/
@[simp] theorem execAll_cons (i : Instr) (is : List Instr) (s : State) :
    execAll (i :: is) s = execAll is (stateAfter i s) := by
  simp [execAll, exec_eq_stateAfter]

/-- Only a seeded GROUP emits, and it emits its group step's bytes. -/
theorem emittedBy_ne_nil {i : Instr} {cnt : Option Nat} (h : emittedBy i cnt ≠ []) :
    ∃ b0 b1 b2 b3 c, i = .group b0 b1 b2 b3 ∧ cnt = some c ∧
      emittedBy i cnt = (groupStep c ⟨b0, b1, b2, b3⟩).2 := by
  cases i with
  | enc w => exact absurd rfl h
  | start a => exact absurd rfl h
  | xform image a => exact absurd rfl h
  | group b0 b1 b2 b3 =>
    cases cnt with
    | none => exact absurd rfl h
    | some c => exact ⟨b0, b1, b2, b3, c, rfl, rfl, rfl⟩

/-- Appending to the output stream appends to what a host that has read `n` bytes still has to read. -/
theorem readOutput_append {n : Nat} {bs : List Byte} {s t : State} (hn : n ≤ s.out.length)
    (h : t.out = s.out ++ bs) : t.readOutput n = s.readOutput n ++ bs := by
  rw [State.readOutput, h, List.drop_append_of_le_length hn, State.readOutput]

/-- Settles O47: the next state of a command is a function of the counter and the output it finds. -/
theorem onlyCntAndOutAreState : Obligations.OnlyCntAndOutAreState := by
  intro i s s' hcnt hout
  refine ⟨stateAfter i s, stateAfter i s', responseTo i s.cnt, exec_eq_stateAfter i s, exec_eq_stateAfter i s', ?_⟩
  simp [hcnt, hout]

/-- Settles O50: every command appends `emittedBy`, which is empty unless the command is a seeded GROUP. -/
theorem outputIsAppendOnly : Obligations.OutputIsAppendOnly := by
  refine ⟨rfl, fun i s t h => ?_, fun i s t h hne => ?_⟩
  · obtain rfl := eq_stateAfter_of_exec h
    refine ⟨List.prefix_append _ _, fun n hn => ?_⟩
    rw [readOutput_append hn (stateAfter_out i s)]
    exact List.prefix_append _ _
  · obtain rfl := eq_stateAfter_of_exec h
    have hemit : emittedBy i s.cnt ≠ [] := fun he => hne (by simp [he])
    obtain ⟨b0, b1, b2, b3, c, hi, hc, hbytes⟩ := emittedBy_ne_nil hemit
    exact ⟨b0, b1, b2, b3, c, hi, hc, by rw [stateAfter_out, hbytes]⟩

end Sys2Proof.Machine
end

section
/-! PROOF. The counter's values along a run of groups, and what a counter above 30 can still do (10_state.md R18). -/

namespace Sys2Proof.Machine

/-! ## Aligned and never-filling counters -/

theorem groupStep_fst (c : Nat) (g : Group) : (groupStep c g).1 = if c + 5 = 30 then 0 else c + 5 := by
  by_cases h : c + 5 = 30
  · simp [groupStep_filled c g h, h]
  · simp [groupStep_plain c g h, h]

/-- The cycle of 41_block_layout.md R75: one group step leads from ALIGNED into ALIGNED. -/
theorem groupStep_fst_mem_alignedOffsets {c : Nat} (hc : c ∈ alignedOffsets) (g : Group) :
    (groupStep c g).1 ∈ alignedOffsets := by
  have hcycle : ∀ c ∈ alignedOffsets, (if c + 5 = 30 then 0 else c + 5) ∈ alignedOffsets := by decide
  rw [groupStep_fst]
  exact hcycle c hc

theorem layout_fst_mem_alignedOffsets {c : Nat} (hc : c ∈ alignedOffsets) (gs : List Group) :
    (layout c gs).1 ∈ alignedOffsets := by
  induction gs generalizing c with
  | nil => exact hc
  | cons g gs ih =>
    rw [layout_cons]
    exact ih (groupStep_fst_mem_alignedOffsets hc g)

/-- A counter whose advances all miss 30 is never reset: it counts five per group (41_block_layout.md R79). -/
theorem layout_fst_of_misses {c : Nat} (h : ∀ k, c + 5 * (k + 1) ≠ 30) (gs : List Group) :
    (layout c gs).1 = c + 5 * gs.length := by
  induction gs generalizing c with
  | nil => rfl
  | cons g gs ih =>
    have hnext : ∀ k, c + 5 + 5 * (k + 1) ≠ 30 := fun k => by
      have := h (k + 1)
      omega
    rw [layout_cons, groupStep_plain c g (h 0), ih hnext, List.length_cons]
    omega

theorem misses_of_not_mem_alignedOffsets {r : Nat} (h : r ∉ alignedOffsets) (k : Nat) : r + 5 * (k + 1) ≠ 30 := by
  simp only [alignedOffsets, List.mem_cons, List.not_mem_nil, or_false] at h
  omega

/-! ## Counters above 30 -/

/-- Two counters no command can tell apart: the same, or both above 30. -/
def CountersAlike (cnt cnt' : Option Nat) : Prop :=
  cnt = cnt' ∨ ∃ c c', cnt = some c ∧ cnt' = some c' ∧ 30 < c ∧ 30 < c'

theorem CountersAlike.responseTo_eq {cnt cnt' : Option Nat} (h : CountersAlike cnt cnt') (i : Instr) :
    responseTo i cnt = responseTo i cnt' := by
  obtain rfl | ⟨c, c', rfl, rfl, -, -⟩ := h
  · rfl
  · cases i <;> rfl

theorem groupStep_of_gt {c : Nat} (h : 30 < c) (g : Group) : groupStep c g = (c + 5, groupBytes g) :=
  groupStep_plain c g (by omega)

theorem CountersAlike.emittedBy_eq {cnt cnt' : Option Nat} (h : CountersAlike cnt cnt') (i : Instr) :
    emittedBy i cnt = emittedBy i cnt' := by
  obtain rfl | ⟨c, c', rfl, rfl, hc, hc'⟩ := h
  · rfl
  · cases i with
    | group b0 b1 b2 b3 => simp only [emittedBy, groupStep_of_gt hc, groupStep_of_gt hc']
    | enc _ | start _ | xform _ _ => rfl

/-- Every command keeps two counters alike: a group step leaves both above 30, and a START makes them the same. -/
theorem CountersAlike.cntAfter {cnt cnt' : Option Nat} (h : CountersAlike cnt cnt') (i : Instr) :
    CountersAlike (cntAfter i cnt) (cntAfter i cnt') := by
  obtain rfl | ⟨c, c', rfl, rfl, hc, hc'⟩ := h
  · exact .inl rfl
  · cases i with
    | enc w => exact .inr ⟨c, c', rfl, rfl, hc, hc'⟩
    | xform image a => exact .inr ⟨c, c', rfl, rfl, hc, hc'⟩
    | start a =>
      by_cases ha : a < 0
      · exact .inr ⟨c, c', by simp [Machine.cntAfter, ha], by simp [Machine.cntAfter, ha], hc, hc'⟩
      · exact .inl (by simp [Machine.cntAfter, ha])
    | group b0 b1 b2 b3 =>
      refine .inr ⟨c + 5, c' + 5, ?_, ?_, by omega, by omega⟩
      · simp [Machine.cntAfter, groupStep_of_gt hc]
      · simp [Machine.cntAfter, groupStep_of_gt hc']

/-- Two runs of the same commands from alike counters end with the same output and the same responses. -/
theorem execAll_of_countersAlike (is : List Instr) {s s' : State} (hcnt : CountersAlike s.cnt s'.cnt)
    (hout : s'.out = s.out) (hresp : s'.responses = s.responses) :
    ∃ t t', execAll is s = .next t ∧ execAll is s' = .next t' ∧ t'.out = t.out ∧ t'.responses = t.responses := by
  induction is generalizing s s' with
  | nil => exact ⟨s, s', rfl, rfl, hout, hresp⟩
  | cons i is ih =>
    rw [execAll_cons, execAll_cons]
    refine ih (hcnt.cntAfter i) ?_ ?_
    · rw [stateAfter_out, stateAfter_out, hout, hcnt.emittedBy_eq i]
    · rw [stateAfter_responses, stateAfter_responses, hresp, hcnt.responseTo_eq i]

/-! ## The obligation -/

/-- START with a non-negative address seeds the counter with a value below 32. -/
theorem exec_start_cnt {a : Int} (s : State) (ha : 0 ≤ a) :
    ∃ t, exec (.start a) s = .next t ∧ t.cnt = some (a % 32).toNat ∧ (a % 32).toNat ≤ 31 := by
  refine ⟨stateAfter (.start a) s, exec_eq_stateAfter _ s, ?_, by omega⟩
  simp [cntAfter, not_lt.mpr ha, startOffset]

/-- Fifty groups after offset 31 the next advance reaches 286, which an 8-bit counter would take for 30; the block
emits no filler there (41_block_layout.md R78). -/
theorem no_filler_at_eight_bit_wrap {gs : List Group} (g : Group) (h : gs.length = 50) :
    (layout 31 gs).1 + 5 = 256 + 30 ∧ (groupStep (layout 31 gs).1 g).2 = groupBytes g := by
  have hcnt : (layout 31 gs).1 = 281 := by rw [layout_fst_of_misses (by omega), h]
  rw [hcnt, groupStep_of_gt (by omega)]
  exact ⟨rfl, rfl⟩

/-- Settles O42: ALIGNED is closed under the group step, every other offset misses 30 for ever, and counters above 30
stay alike under every command. -/
theorem counterLegalValuesAndSaturation : Obligations.CounterLegalValuesAndSaturation := by
  refine ⟨fun a s ha => exec_start_cnt s ha, fun r hr gs => layout_fst_mem_alignedOffsets hr gs,
    fun r _ hr gs => layout_fst_of_misses (misses_of_not_mem_alignedOffsets hr) gs, fun is s c c' hc hc' => ?_,
    fun gs g h => no_filler_at_eight_bit_wrap g h⟩
  exact execAll_of_countersAlike is (.inr ⟨c, c', rfl, rfl, hc, hc'⟩) rfl rfl

end Sys2Proof.Machine
end

section
/-! PROOF. The input of XFORM: the groups of an image, by index (20_memory.md R29). -/

namespace Sys2Proof.Machine

/-- Only the address modulo 32 is read (41_block_layout.md R88). -/
theorem startOffset_eq (a : Int) : startOffset a = (a % 32).toNat := rfl

@[simp] theorem groupsOf_nil : groupsOf [] = [] := rfl

/-- Fewer than four bytes hold no group. -/
theorem groupsOf_of_length_lt {image : List Byte} (h : image.length < 4) : groupsOf image = [] := by
  match image with
  | [] | [_] | [_, _] | [_, _, _] => rfl
  | _ :: _ :: _ :: _ :: _ => simp at h; omega

@[simp] theorem groupsOf_cons (b0 b1 b2 b3 : Byte) (rest : List Byte) :
    groupsOf (b0 :: b1 :: b2 :: b3 :: rest) = ⟨b0, b1, b2, b3⟩ :: groupsOf rest := rfl

@[simp] theorem groupAt_cons_succ (b0 b1 b2 b3 : Byte) (rest : List Byte) (g : Nat) :
    groupAt (b0 :: b1 :: b2 :: b3 :: rest) (g + 1) = groupAt rest g := rfl

/-- An image is cut into fewer than four bytes, or a first group and the image after it. -/
theorem image_induction {P : List Byte → Prop} (short : ∀ image : List Byte, image.length < 4 → P image)
    (group : ∀ b0 b1 b2 b3 rest, P rest → P (b0 :: b1 :: b2 :: b3 :: rest)) (image : List Byte) : P image := by
  induction image using groupsOf.induct with
  | case1 b0 b1 b2 b3 rest ih => exact group b0 b1 b2 b3 rest ih
  | case2 image h =>
    refine short image ?_
    match image with
    | [] | [_] | [_, _] | [_, _, _] => simp
    | b0 :: b1 :: b2 :: b3 :: rest => exact absurd rfl (h b0 b1 b2 b3 rest)

/-- The groups of an image stand at its indices `4g`, in order. -/
theorem groupsOf_eq_map_groupAt (image : List Byte) :
    groupsOf image = (List.range (image.length / 4)).map (groupAt image) := by
  induction image using image_induction with
  | short image h => simp [groupsOf_of_length_lt h, Nat.div_eq_of_lt h]
  | group b0 b1 b2 b3 rest ih =>
    have hlen : (b0 :: b1 :: b2 :: b3 :: rest).length / 4 = rest.length / 4 + 1 := by
      simp only [List.length_cons]; omega
    rw [groupsOf_cons, ih, hlen, List.range_succ_eq_map, List.map_cons, List.map_map]
    rfl

@[simp] theorem groupsOf_length (image : List Byte) : (groupsOf image).length = image.length / 4 := by
  simp [groupsOf_eq_map_groupAt]

theorem groupsOf_getElem (image : List Byte) (g : Nat) (h : g < (groupsOf image).length) :
    (groupsOf image)[g] = groupAt image g := by
  simp [groupsOf_eq_map_groupAt]

/-- A whole group is four bytes read in order from its index. -/
theorem groupData_groupAt {image : List Byte} {g : Nat} (h : g < image.length / 4) :
    groupData (groupAt image g) = memRead image (4 * g) 4 := by
  induction image using image_induction generalizing g with
  | short image hs => omega
  | group b0 b1 b2 b3 rest ih =>
    cases g with
    | zero => rfl
    | succ g =>
      rw [groupAt_cons_succ, ih (by simp only [List.length_cons] at h; omega)]
      rfl

/-- The groups of an image of whole groups hold its bytes, each once and in order. -/
theorem flatMap_groupData_groupsOf {image : List Byte} (h : image.length % 4 = 0) :
    (groupsOf image).flatMap groupData = image := by
  induction image using image_induction with
  | short image hs => simp [List.length_eq_zero_iff.mp (by omega : image.length = 0)]
  | group b0 b1 b2 b3 rest ih =>
    have hrest : rest.length % 4 = 0 := by simp only [List.length_cons] at h; omega
    rw [groupsOf_cons, List.flatMap_cons, ih hrest]
    rfl

/-- Bytes after whole groups are cut into groups of their own. -/
theorem groupsOf_append {image : List Byte} (h : image.length % 4 = 0) (later : List Byte) :
    groupsOf (image ++ later) = groupsOf image ++ groupsOf later := by
  induction image using image_induction with
  | short image hs => simp [List.length_eq_zero_iff.mp (by omega : image.length = 0)]
  | group b0 b1 b2 b3 rest ih =>
    have hrest : rest.length % 4 = 0 := by simp only [List.length_cons] at h; omega
    simp [ih hrest]

/-- Settles O36: by induction over the image, a group at a time. -/
theorem inputIsReadInOrder : Obligations.InputIsReadInOrder :=
  fun image => ⟨groupsOf_eq_map_groupAt image, fun _ hg => groupData_groupAt hg, flatMap_groupData_groupsOf⟩

end Sys2Proof.Machine
end

section
/-! PROOF. The output of a run of groups: where each group's bytes and each filler stand (41_block_layout.md R85, R86),
from any counter. -/

namespace Sys2Proof.Machine

theorem groupStep_snd (c : Nat) (g : Group) :
    (groupStep c g).2 = groupBytes g ++ (if c + 5 = 30 then [0x00#8, 0x00#8] else []) := by
  by_cases h : c + 5 = 30
  · simp [groupStep_filled c g h, h]
  · simp [groupStep_plain c g h, h]

theorem mem_alignedOffsets {r : Nat} : r ∈ alignedOffsets ↔ r % 5 = 0 ∧ r ≤ 25 := by
  simp only [alignedOffsets, List.mem_cons, List.not_mem_nil, or_false]
  omega

@[simp] theorem groupIndex_zero (r : Nat) : groupIndex r 0 = 0 := by
  simp only [groupIndex, fillersBefore, mem_alignedOffsets]
  split <;> omega

/-- The index of group `g + 1` counted from the group after the first. -/
theorem groupIndex_succ_eq_first_add (r g : Nat) (b : Group) :
    groupIndex r (g + 1) = (groupStep r b).2.length + groupIndex (groupStep r b).1 g := by
  simp only [groupIndex, fillersBefore, mem_alignedOffsets, groupStep_fst, groupStep_snd, List.length_append,
    groupBytes_length, apply_ite List.length, List.length_cons, List.length_nil]
  split_ifs <;> omega

/-- A run of groups produces as many bytes as the index of the group after it. -/
theorem layout_snd_length (c : Nat) (gs : List Group) : (layout c gs).2.length = groupIndex c gs.length := by
  induction gs generalizing c with
  | nil => simp
  | cons b gs ih =>
    rw [layout_cons, List.length_append, ih, List.length_cons, groupIndex_succ_eq_first_add c gs.length b]

/-- The bytes before group `g`, those its group step emits, and the bytes after. -/
theorem layout_snd_eq_before_group_after (c : Nat) {gs : List Group} {g : Nat} (h : g < gs.length) :
    ∃ after, (layout c gs).2 = (layout c (gs.take g)).2 ++
      ((groupStep (layout c (gs.take g)).1 gs[g]).2 ++ after) := by
  have hsplit : gs = gs.take g ++ gs[g] :: gs.drop (g + 1) := by simp
  refine ⟨(layout (groupStep (layout c (gs.take g)).1 gs[g]).1 (gs.drop (g + 1))).2, ?_⟩
  conv_lhs => rw [hsplit, layout_append, layout_cons]

/-- The output from the index of group `g` on begins with that group step's bytes. -/
theorem groupStep_prefix_drop_groupIndex (c : Nat) {gs : List Group} {g : Nat} (h : g < gs.length) :
    (groupStep (layout c (gs.take g)).1 gs[g]).2 <+: (layout c gs).2.drop (groupIndex c g) := by
  obtain ⟨after, hout⟩ := layout_snd_eq_before_group_after c h
  have hlen : (layout c (gs.take g)).2.length = groupIndex c g := by
    rw [layout_snd_length, List.length_take, Nat.min_eq_left h.le]
  rw [hout, List.drop_left' hlen]
  exact List.prefix_append _ _

/-- At the index of group `g` stand the group's bytes and its check code. -/
theorem memRead_layout_groupIndex (c : Nat) {gs : List Group} {g : Nat} (h : g < gs.length) :
    memRead (layout c gs).2 (groupIndex c g) 5 = groupBytes gs[g] := by
  have hpre := groupStep_prefix_drop_groupIndex c h
  rw [groupStep_snd] at hpre
  exact (List.prefix_iff_eq_take.mp ((List.prefix_append _ _).trans hpre)).symm

/-- The place of a group's next neighbour follows the bytes of its own group step. -/
theorem groupIndex_succ_eq_add_groupStep (c : Nat) {gs : List Group} {g : Nat} (h : g < gs.length) :
    groupIndex c (g + 1) = groupIndex c g + (groupStep (layout c (gs.take g)).1 gs[g]).2.length := by
  have hlast := layout_snd_length c (gs.take (g + 1))
  have hbefore := layout_snd_length c (gs.take g)
  rw [List.length_take, Nat.min_eq_left (by omega)] at hlast hbefore
  rw [← hlast, ← hbefore, List.take_succ_eq_append_getElem h, layout_append, List.length_append, layout_cons]
  simp

/-- Every output byte is one of some group step's. -/
theorem exists_groupIndex_le_lt {r j n : Nat} (h : j < groupIndex r n) :
    ∃ g < n, groupIndex r g ≤ j ∧ j < groupIndex r (g + 1) := by
  induction n with
  | zero => simp at h
  | succ n ih =>
    rcases lt_or_ge j (groupIndex r n) with hj | hj
    · obtain ⟨g, hg, hle, hlt⟩ := ih hj
      exact ⟨g, by omega, hle, hlt⟩
    · exact ⟨n, by omega, hj, h⟩

/-- Past its five group bytes, a group step emits only the two zero bytes of the filler. -/
theorem groupStep_snd_getElem?_of_ge {c k : Nat} {g : Group} (hk : 5 ≤ k) (hlt : k < (groupStep c g).2.length) :
    (groupStep c g).2.length = 7 ∧ (groupStep c g).2[k]? = some 0x00#8 := by
  by_cases hc : c + 5 = 30
  · rw [groupStep_filled c g hc] at hlt ⊢
    have hk7 : k = 5 ∨ k = 6 := by simp at hlt; omega
    refine ⟨rfl, ?_⟩
    rcases hk7 with rfl | rfl <;> rfl
  · simp [groupStep_plain c g hc] at hlt
    omega

/-- An output byte outside every group is 0x00 and stands directly after a group at which `F` grows. -/
theorem layout_byte_outside_groups (c : Nat) {gs : List Group} {j : Nat} (hj : j < (layout c gs).2.length)
    (hout : ∀ g < gs.length, j < groupIndex c g ∨ groupIndex c g + 5 ≤ j) :
    (layout c gs).2[j]? = some 0x00#8 ∧
      ∃ g < gs.length, fillersBefore c (g + 1) = fillersBefore c g + 1 ∧
        (j = groupIndex c g + 5 ∨ j = groupIndex c g + 6) := by
  rw [layout_snd_length] at hj
  obtain ⟨g, hg, hle, hlt⟩ := exists_groupIndex_le_lt hj
  obtain ⟨k, rfl⟩ := Nat.exists_eq_add_of_le hle
  have hk : 5 ≤ k := by have := hout g hg; omega
  have hnext := groupIndex_succ_eq_add_groupStep c hg
  have hkstep : k < (groupStep (layout c (gs.take g)).1 gs[g]).2.length := by omega
  obtain ⟨hseven, hzero⟩ := groupStep_snd_getElem?_of_ge hk hkstep
  refine ⟨?_, g, hg, ?_, by omega⟩
  · obtain ⟨after, hafter⟩ := groupStep_prefix_drop_groupIndex c hg
    rw [← List.getElem?_drop, ← hafter, List.getElem?_append_left hkstep, hzero]
  · simp only [groupIndex] at hnext
    omega

end Sys2Proof.Machine
end

section
/-! PROOF. The output of XFORM: how it ends (20_memory.md R41) and how it meets the physical blocks (R40). -/

namespace Sys2Proof.Machine

/-- Four bytes are one group. -/
theorem groupsOf_of_length_eq_four {bs : List Byte} (h : bs.length = 4) : groupsOf bs = [groupAt bs 0] := by
  simp [groupsOf_eq_map_groupAt, h]

theorem groupData_groupAt_zero {bs : List Byte} (h : bs.length = 4) : groupData (groupAt bs 0) = bs := by
  rw [groupData_groupAt (by omega), memRead, Nat.mul_zero, List.drop_zero, ← h, List.take_length]

/-- One group more appends that group's step, from the counter the groups before it leave. -/
theorem transform_append_group {image last : List Byte} (himage : image.length % 4 = 0) (hlast : last.length = 4)
    (a : Int) : transform (image ++ last) a =
      transform image a ++ (groupStep (layout (startOffset a) (groupsOf image)).1 (groupAt last 0)).2 := by
  rw [transform, groupsOf_append himage, groupsOf_of_length_eq_four hlast, layout_append, layout_cons]
  simp [transform]

/-- Settles O40: the last group's step comes after the transform of the groups before it. -/
theorem outputEndsWithTheLastGroup : Obligations.OutputEndsWithTheLastGroup := by
  intro image last a _ himage hlast
  refine ⟨transform image a, ?_, rfl⟩
  rw [transform_append_group himage hlast, groupStep_snd, groupBytes, groupData_groupAt_zero hlast, startOffset_eq,
    groupCode]
  simp only [List.append_assoc]

/-- The index of group `g` from an aligned offset, in the form of R40. -/
theorem groupIndex_of_aligned {q : Nat} (hq : q ≤ 5) (g : Nat) : groupIndex (5 * q) g = 5 * g + 2 * ((g + q) / 6) := by
  have hmem : 5 * q ∈ alignedOffsets := mem_alignedOffsets.mpr (by omega)
  rw [groupIndex, fillersBefore, if_pos hmem, Nat.mul_div_cancel_left q (by omega)]

theorem blockOffset_placeAt (a : Int) (j : Nat) : blockOffset (placeAt a j) = ((a + j) % 32).toNat := rfl

section
variable {a : Int} {q : Nat} (hoff : a % 32 = 5 * q)
include hoff

theorem startOffset_of_aligned : startOffset a = 5 * q := by
  rw [startOffset_eq, hoff]
  omega

/-- The physical address of group `g`: six groups to a block, five bytes each. -/
theorem placeAt_group_of_aligned (g : Nat) :
    placeAt a (5 * g + 2 * ((g + q) / 6)) = 32 * (a / 32 + ((g + q) / 6 : Nat)) + 5 * ((g + q) % 6 : Nat) := by
  unfold placeAt
  omega

theorem blockOffset_group_of_aligned (g d : Nat) (hd : d < 5) :
    blockOffset (placeAt a (5 * g + 2 * ((g + q) / 6) + d)) = 5 * ((g + q) % 6) + d := by
  rw [blockOffset_placeAt]
  omega

/-- After a group at which the number of fillers grows, the block's offsets 30 and 31 come next. -/
theorem blockOffset_filler_of_aligned {g d : Nat} (hgrows : (g + 1 + q) / 6 = (g + q) / 6 + 1) (hd : d < 2) :
    blockOffset (placeAt a (5 * g + 2 * ((g + q) / 6) + 5 + d)) = 30 + d := by
  rw [blockOffset_placeAt]
  omega

end

/-- Settles O39: R86's indices at an aligned offset, carried to block offsets by R38. -/
theorem alignedOutputMeetsTheBlockMap : Obligations.AlignedOutputMeetsTheBlockMap := by
  intro image a q _ hq hoff _
  have hindex := groupIndex_of_aligned hq
  simp only [transform, startOffset_of_aligned hoff, ← groupsOf_length image]
  refine ⟨fun g hg => ⟨?_, placeAt_group_of_aligned hoff g, fun d hd => ?_⟩, fun j hj hout => ?_⟩
  · rw [← hindex, memRead_layout_groupIndex (5 * q) hg, groupsOf_getElem]
  · have hblock := blockOffset_group_of_aligned hoff g d hd
    exact ⟨hblock, by omega⟩
  · simp only [← hindex] at hout
    obtain ⟨hzero, g, -, hgrows, hplace⟩ := layout_byte_outside_groups (5 * q) hj hout
    refine ⟨?_, hzero⟩
    have hmem : 5 * q ∈ alignedOffsets := mem_alignedOffsets.mpr (by omega)
    have hgrows' : (g + 1 + q) / 6 = (g + q) / 6 + 1 := by
      simpa only [fillersBefore, if_pos hmem, Nat.mul_div_cancel_left q (by omega : 0 < 5)] using hgrows
    rw [hindex] at hplace
    rcases hplace with rfl | rfl
    · exact .inl (blockOffset_filler_of_aligned hoff hgrows' (d := 0) (by omega))
    · exact .inr (blockOffset_filler_of_aligned hoff hgrows' (d := 1) (by omega))

end Sys2Proof.Machine
end

section
/-! PROOF. Purity, idempotence and growth: what repeating a command does (20_memory.md R42). -/

namespace Sys2Proof.Machine

/-- A pure command does not read the counter, keeps it, and emits nothing. -/
theorem isPure_keeps_pair_and_ignores_counter {i : Instr} (h : isPure i = true) (cnt cnt' : Option Nat) :
    cntAfter i cnt = cnt ∧ emittedBy i cnt = [] ∧ responseTo i cnt = responseTo i cnt' := by
  cases i with
  | enc w => exact ⟨rfl, rfl, rfl⟩
  | xform image a => exact ⟨rfl, rfl, rfl⟩
  | start a => cases h
  | group b0 b1 b2 b3 => cases h

@[simp] theorem emittedBy_start (a : Int) (cnt : Option Nat) : emittedBy (.start a) cnt = [] := rfl

theorem cntAfter_start {a : Int} (h : 0 ≤ a) (cnt : Option Nat) : cntAfter (.start a) cnt = some (startOffset a) := by
  simp [cntAfter, not_lt.mpr h]

theorem groupStep_fst_ne (c : Nat) (g : Group) : (groupStep c g).1 ≠ c := by
  rw [groupStep_fst]
  split <;> omega

theorem groupStep_snd_length_pos (c : Nat) (g : Group) : 0 < (groupStep c g).2.length := by
  rw [groupStep_snd, List.length_append, groupBytes_length]
  omega

/-- The output holds at least the five bytes of each whole group, of any byte string. -/
theorem five_mul_le_transform_length (image : List Byte) (a : Int) :
    5 * (image.length / 4) ≤ (transform image a).length := by
  rw [transform, layout_snd_length, groupsOf_length, groupIndex]
  omega

/-- GROUP with the counter seeded appends to the output and moves the counter. -/
theorem group_appends_and_advances (g : Group) {s : State} (h : s.cnt ≠ none) :
    s.out.length < (stateAfter (groupCommand g) s).out.length ∧ (stateAfter (groupCommand g) s).cnt ≠ s.cnt := by
  obtain ⟨c, hc⟩ := Option.ne_none_iff_exists'.mp h
  have hpos := groupStep_snd_length_pos c g
  have hne := groupStep_fst_ne c g
  rw [stateAfter_out, stateAfter_cnt, hc, List.length_append]
  exact ⟨Nat.lt_add_of_pos_right hpos, fun heq => hne (Option.some.inj heq)⟩

/-- Settles O52: XFORM's output is longer than its image, so no second transform leads back. -/
theorem idempotenceAndPurity : Obligations.IdempotenceAndPurity := by
  refine ⟨fun i s t hpure h => ?_, fun a s t h => ?_, fun a a' s t u ha hoff ha' h h' => ?_, fun g s t hs h => ?_,
    fun image a a' hne hlen _ _ => ?_⟩
  · obtain rfl := eq_stateAfter_of_exec h
    obtain ⟨hcnt, hout, -⟩ := isPure_keeps_pair_and_ignores_counter hpure s.cnt s.cnt
    refine ⟨hcnt, by simp [hout], fun s' t' h' => ⟨responseTo i s.cnt, rfl, ?_⟩⟩
    obtain ⟨-, -, hresp⟩ := isPure_keeps_pair_and_ignores_counter hpure s.cnt s'.cnt
    rw [eq_stateAfter_of_exec h', stateAfter_responses, hresp]
  · obtain rfl := eq_stateAfter_of_exec h
    simp
  · obtain rfl := eq_stateAfter_of_exec h
    obtain rfl := eq_stateAfter_of_exec h'
    simp [cntAfter_start ha, cntAfter_start ha', startOffset_eq, hoff]
  · obtain rfl := eq_stateAfter_of_exec h
    exact group_appends_and_advances g hs
  · have honce := five_mul_le_transform_length image a
    have htwice := five_mul_le_transform_length (transform image a) a'
    have hgroups : image.length / 4 ≤ (transform image a).length / 4 := by omega
    exact ⟨fun heq => by rw [heq] at honce; omega, fun heq => by rw [heq] at htwice; omega⟩

end Sys2Proof.Machine
end


section
/-! PROOF. Fields of bytes as bit vectors: little-endian assembly (30_encoding.md R48, R52) and what of an address the
layout reads (R58). -/

namespace Sys2Proof.Machine

/-- One byte more at the low end. -/
theorem toNat_append_byte {n : Nat} (x : BitVec n) (b : Byte) : (x ++ b).toNat = b.toNat + 256 * x.toNat := by
  rw [BitVec.toNat_append, ← Nat.shiftLeft_add_eq_or_of_lt b.isLt, Nat.shiftLeft_eq]
  omega

/-- A four-byte field, most significant byte written first. -/
theorem leNat_four (b0 b1 b2 b3 : Byte) : leNat [b0, b1, b2, b3] = (b3 ++ b2 ++ b1 ++ b0).toNat := by
  simp [leNat, toNat_append_byte]

/-- An eight-byte field, most significant byte written first. -/
theorem leNat_eight (b0 b1 b2 b3 b4 b5 b6 b7 : Byte) :
    leNat [b0, b1, b2, b3, b4, b5, b6, b7] = (b7 ++ b6 ++ b5 ++ b4 ++ b3 ++ b2 ++ b1 ++ b0).toNat := by
  simp [leNat, toNat_append_byte]

theorem ofNat_leNat_four (b0 b1 b2 b3 : Byte) : BitVec.ofNat 32 (leNat [b0, b1, b2, b3]) = b3 ++ b2 ++ b1 ++ b0 := by
  rw [leNat_four]
  exact (BitVec.ofNat_toNat _ _).trans (BitVec.setWidth_eq _)

theorem sext64_leNat_eight (b0 b1 b2 b3 b4 b5 b6 b7 : Byte) :
    sext64 (leNat [b0, b1, b2, b3, b4, b5, b6, b7]) =
      (b7 ++ b6 ++ b5 ++ b4 ++ b3 ++ b2 ++ b1 ++ b0 : BitVec 64).toInt := by
  rw [leNat_eight]
  exact congrArg BitVec.toInt ((BitVec.ofNat_toNat _ _).trans (BitVec.setWidth_eq _))

/-- The offset of an address is its low five bits (30_encoding.md R58). -/
theorem startOffset_toInt (a : BitVec 64) : startOffset a.toInt = (a.extractLsb 4 0).toNat := by
  rw [startOffset_eq, BitVec.toInt_eq_toNat_cond, BitVec.extractLsb_toNat]
  have := a.isLt
  split <;> simp <;> omega

/-! ## The data word -/

theorem dataWord_toNat (g : Group) :
    (dataWord g).toNat = g.b0.toNat + 256 * (g.b1.toNat + 256 * (g.b2.toNat + 256 * g.b3.toNat)) := by
  simp [dataWord, toNat_append_byte]

theorem dataWord_extractLsb (g : Group) :
    (dataWord g).extractLsb 7 0 = g.b0 ∧ (dataWord g).extractLsb 15 8 = g.b1 ∧
      (dataWord g).extractLsb 23 16 = g.b2 ∧ (dataWord g).extractLsb 31 24 = g.b3 := by
  have h0 := g.b0.isLt
  have h1 := g.b1.isLt
  have h2 := g.b2.isLt
  have h3 := g.b3.isLt
  refine ⟨?_, ?_, ?_, ?_⟩ <;> apply BitVec.eq_of_toNat_eq <;>
    simp only [BitVec.extractLsb_toNat, dataWord_toNat, Nat.shiftRight_eq_div_pow] <;> omega

/-- Bit `t` of byte `j` of a group is bit `8 * j + t` of its data word (20_memory.md R32). -/
theorem dataWord_getLsbD (g : Group) (j : Fin 4) (t : Fin 8) :
    (dataWord g).getLsbD (8 * j.val + t.val) = ((groupData g).getD j.val 0).getLsbD t.val := by
  obtain ⟨h0, h1, h2, h3⟩ := dataWord_extractLsb g
  match j with
  | 0 => simp [groupData, ← h0]
  | 1 => simp [groupData, ← h1]
  | 2 => simp [groupData, ← h2]
  | 3 => simp [groupData, ← h3]

/-- The bytes of a word, in the order of R48. -/
def groupOfWord (w : Word) : Group :=
  ⟨w.extractLsb 7 0, w.extractLsb 15 8, w.extractLsb 23 16, w.extractLsb 31 24⟩

theorem dataWord_groupOfWord (w : Word) : dataWord (groupOfWord w) = w := by
  have hw := w.isLt
  apply BitVec.eq_of_toNat_eq
  simp only [dataWord_toNat, groupOfWord, BitVec.extractLsb_toNat, Nat.shiftRight_eq_div_pow]
  omega

/-- A byte moved up by `k` byte lanes fills lane `k` and leaves the other lanes zero. -/
theorem byte_shiftLeft_getLsbD (b : Byte) {n k : Nat} (hn : n = 8 * k) (j : Fin 4) (t : Fin 8) :
    (b.setWidth 32 <<< n).getLsbD (8 * j.val + t.val) = (decide (j.val = k) && b.getLsbD t.val) := by
  subst hn
  have hlt : 8 * j.val + t.val < 32 := by omega
  rw [BitVec.getLsbD_shiftLeft, BitVec.getLsbD_setWidth]
  rcases lt_trichotomy j.val k with h | h | h
  · have hbelow : 8 * j.val + t.val < 8 * k := by omega
    simp [hbelow, h.ne]
  · have ht : t.val < 32 := by omega
    simp [← h, hlt, ht]
  · have habove : 8 ≤ 8 * j.val + t.val - 8 * k := by omega
    simp [BitVec.getLsbD_of_ge b _ habove, h.ne']

theorem dataWord_eq_or_shifted (b0 b1 b2 b3 : Byte) : dataWord ⟨b0, b1, b2, b3⟩ =
    (b0.setWidth 32 ||| (b1.setWidth 32 <<< 8) ||| (b2.setWidth 32 <<< 16) ||| (b3.setWidth 32 <<< 24)) := by
  apply BitVec.eq_of_getLsbD_eq
  intro i hi
  obtain ⟨j, t, rfl⟩ : ∃ (j : Fin 4) (t : Fin 8), i = 8 * j.val + t.val :=
    ⟨⟨i / 8, by omega⟩, ⟨i % 8, by omega⟩, (Nat.div_add_mod i 8).symm⟩
  rw [dataWord_getLsbD, BitVec.getLsbD_or, BitVec.getLsbD_or, BitVec.getLsbD_or,
    ← BitVec.shiftLeft_zero (b0.setWidth 32), byte_shiftLeft_getLsbD b0 (k := 0) rfl,
    byte_shiftLeft_getLsbD b1 (k := 1) rfl, byte_shiftLeft_getLsbD b2 (k := 2) rfl,
    byte_shiftLeft_getLsbD b3 (k := 3) rfl]
  match j with
  | 0 | 1 | 2 | 3 => simp [groupData]

/-- Settles O14: each byte is one lane of the word, in both forms of R48. -/
theorem dataWordIsLittleEndian : Obligations.DataWordIsLittleEndian := by
  refine ⟨fun b0 b1 b2 b3 => ?_, fun w => ⟨groupOfWord w, dataWord_groupOfWord w⟩, by decide, by decide⟩
  obtain ⟨h0, h1, h2, h3⟩ := dataWord_extractLsb ⟨b0, b1, b2, b3⟩
  exact ⟨rfl, dataWord_eq_or_shifted b0 b1 b2 b3, h0, h1, h2, h3, dataWord_getLsbD ⟨b0, b1, b2, b3⟩⟩

end Sys2Proof.Machine
end

section
/-! PROOF. The decoder by lengths (30_encoding.md R57): a command's operands are read exactly when the bytes are there,
and from their own bytes. -/

namespace Sys2Proof.Machine

theorem takeField_of_le {n : Nat} {bs : List Byte} (h : n ≤ bs.length) :
    takeField n bs = some (bs.take n, bs.drop n) := by
  simp [takeField, h]

/-! ## Operands from their own bytes -/

theorem decodeEnc_append {w : List Byte} (h : w.length = 4) (rest : List Byte) :
    decodeEnc (w ++ rest) = some (.enc (BitVec.ofNat 32 (leNat w)), rest) := by
  rw [decodeEnc, takeField_append w rest h]

theorem decodeStart_append {a : List Byte} (h : a.length = 8) (rest : List Byte) :
    decodeStart (a ++ rest) = some (.start (sext64 (leNat a)), rest) := by
  rw [decodeStart, takeField_append a rest h]

theorem decodeXform_append {a l image : List Byte} (ha : a.length = 8) (hl : l.length = 4)
    (himage : image.length = leNat l) (rest : List Byte) :
    decodeXform (a ++ (l ++ (image ++ rest))) = some (.xform image (sext64 (leNat a)), rest) := by
  simp only [decodeXform, takeField_append a _ ha, takeField_append l _ hl, takeField_append image rest himage]

/-- Settles O10: each field is the concatenation of its bytes, the last byte highest. -/
theorem operandAssembly : Obligations.OperandAssembly := by
  have henc (b0 b1 b2 b3 : Byte) : decode [0x01#8, b0, b1, b2, b3] = .command (.enc (b3 ++ b2 ++ b1 ++ b0)) [] := by
    rw [← ofNat_leNat_four]
    exact congrArg (finishCommand opEnc) (decodeEnc_append (w := [b0, b1, b2, b3]) rfl [])
  refine ⟨henc, fun a0 a1 a2 a3 a4 a5 a6 a7 => ?_, fun a _ => startOffset_toInt a,
    fun b0 b1 b2 b3 => ⟨rfl, henc b0 b1 b2 b3⟩, fun a0 a1 a2 a3 a4 a5 a6 a7 l0 l1 l2 l3 image himage => ?_⟩
  · rw [← sext64_leNat_eight]
    exact congrArg (finishCommand opStart) (decodeStart_append (a := [a0, a1, a2, a3, a4, a5, a6, a7]) rfl [])
  · have h := decodeXform_append (a := [a0, a1, a2, a3, a4, a5, a6, a7]) (l := [l0, l1, l2, l3]) rfl rfl
      (himage.trans (leNat_four l0 l1 l2 l3).symm) []
    rw [List.append_nil] at h
    rw [← sext64_leNat_eight]
    exact congrArg (finishCommand opXform) h

/-! ## Operands by the number of bytes at hand -/

/-- The operands of opcode `op` take the first `n` bytes of `tl`: without them there is no command, and with them the
bytes after them are left. -/
def OperandsTake (op : Byte) (n : Nat) (tl : List Byte) (operands : Option (Instr × List Byte)) : Prop :=
  (tl.length < n → operands = none) ∧ (n ≤ tl.length → ∃ i, opcodeOf i = op ∧ operands = some (i, tl.drop n))

theorem operandsTake_enc (tl : List Byte) : OperandsTake opEnc 4 tl (decodeEnc tl) :=
  ⟨fun h => by simp only [decodeEnc, takeField_eq_none.mpr h],
    fun h => ⟨.enc _, rfl, by rw [decodeEnc, takeField_of_le h]⟩⟩

theorem operandsTake_start (tl : List Byte) : OperandsTake opStart 8 tl (decodeStart tl) :=
  ⟨fun h => by simp only [decodeStart, takeField_eq_none.mpr h],
    fun h => ⟨.start _, rfl, by rw [decodeStart, takeField_of_le h]⟩⟩

theorem operandsTake_group (tl : List Byte) : OperandsTake opGroup 4 tl (decodeGroup tl) := by
  match tl with
  | [] | [_] | [_, _] | [_, _, _] => exact ⟨fun _ => rfl, fun h => absurd h (by simp)⟩
  | b0 :: b1 :: b2 :: b3 :: rest => exact ⟨fun h => absurd h (by simp), fun _ => ⟨.group b0 b1 b2 b3, rfl, rfl⟩⟩

theorem operandsTake_xform (tl : List Byte) :
    OperandsTake opXform (12 + leNat ((tl.drop 8).take 4)) tl (decodeXform tl) := by
  have hafterA : (tl.drop 8).length = tl.length - 8 := List.length_drop
  have hafterL : ((tl.drop 8).drop 4).length = tl.length - 12 := by rw [List.length_drop, hafterA]; omega
  refine ⟨fun h => ?_, fun h => ?_⟩
  · by_cases ha : tl.length < 8
    · simp only [decodeXform, takeField_eq_none.mpr ha]
    · by_cases hl : tl.length < 12
      · simp only [decodeXform, takeField_of_le (not_lt.mp ha),
          takeField_eq_none.mpr (by omega : (tl.drop 8).length < 4)]
      · simp only [decodeXform, takeField_of_le (not_lt.mp ha), takeField_of_le (by omega : 4 ≤ (tl.drop 8).length),
          takeField_eq_none.mpr (by omega : ((tl.drop 8).drop 4).length < leNat ((tl.drop 8).take 4))]
  · refine ⟨.xform (((tl.drop 8).drop 4).take (leNat ((tl.drop 8).take 4))) (sext64 (leNat (tl.take 8))), rfl, ?_⟩
    simp only [decodeXform, takeField_of_le (by omega : 8 ≤ tl.length),
      takeField_of_le (by omega : 4 ≤ (tl.drop 8).length),
      takeField_of_le (by omega : leNat ((tl.drop 8).take 4) ≤ ((tl.drop 8).drop 4).length)]
    rw [List.drop_drop, List.drop_drop]

theorem OperandsTake.truncated {op : Byte} {n : Nat} {tl : List Byte} {operands : Option (Instr × List Byte)}
    (h : OperandsTake op n tl operands) (hshort : tl.length < n) : finishCommand op operands = .truncated op := by
  rw [h.1 hshort, finishCommand]

theorem OperandsTake.command {op : Byte} {n : Nat} {tl : List Byte} {operands : Option (Instr × List Byte)}
    (h : OperandsTake op n tl operands) (hlong : n ≤ tl.length) :
    ∃ i, opcodeOf i = op ∧ finishCommand op operands = .command i (tl.drop n) := by
  obtain ⟨i, hi, hoperands⟩ := h.2 hlong
  exact ⟨i, hi, by rw [hoperands, finishCommand]⟩

/-! ## The decoder -/

theorem decode_reserved {op : Byte} (h : op ∉ [opEnc, opStart, opGroup, opXform]) (tl : List Byte) :
    commandLength (op :: tl) = 1 ∧ decode (op :: tl) = .reserved op tl := by
  simp only [List.mem_cons, List.not_mem_nil, or_false, not_or] at h
  obtain ⟨h1, h2, h3, h4⟩ := h
  constructor
  · simp only [commandLength, h1, h2, h3, h4, if_false]
  · simp only [decode, h1, h2, h3, h4, if_false]

/-- A defined opcode's operands take one byte less than the command's length. -/
theorem decode_defined {op : Byte} (h : op ∈ [opEnc, opStart, opGroup, opXform]) (tl : List Byte) :
    ∃ n operands, commandLength (op :: tl) = n + 1 ∧ OperandsTake op n tl operands ∧
      decode (op :: tl) = finishCommand op operands := by
  simp only [List.mem_cons, List.not_mem_nil, or_false] at h
  obtain rfl | rfl | rfl | rfl := h
  · exact ⟨4, _, rfl, operandsTake_enc tl, rfl⟩
  · exact ⟨8, _, rfl, operandsTake_start tl, rfl⟩
  · exact ⟨4, _, rfl, operandsTake_group tl, rfl⟩
  · exact ⟨_, _, by rw [commandLength_xform]; omega, operandsTake_xform tl, rfl⟩

theorem mem_opcodes_iff {op : Byte} : op ∈ [opEnc, opStart, opGroup, opXform] ↔ 1 ≤ op.toNat ∧ op.toNat ≤ 4 := by
  simp only [List.mem_cons, List.not_mem_nil, or_false, ← BitVec.toNat_inj, BitVec.toNat_ofNat]
  omega

/-! ## A step on a byte string -/

/-- A byte string that is no command is answered with ERR_ILLEGAL_OP, whatever is left of it. -/
theorem step_of_illegal {s : State} {bs rest : List Byte} {q : List Request} {op : Byte} (h : s.inbox = .bytes bs :: q)
    (hd : decode bs = .reserved op rest ∨ decode bs = .truncated op) :
    ∃ q', step s = .next ((s.setInbox q').raise (.illegalOp op)) := by
  rcases hd with hd | hd
  · exact ⟨requeue rest q, by simp [step, fetch_bytes h, fetchBytes, hd]⟩
  · exact ⟨q, by simp [step, fetch_bytes h, fetchBytes, hd]⟩

theorem step_of_decoded_command {s : State} {bs rest : List Byte} {q : List Request} {i : Instr}
    (h : s.inbox = .bytes bs :: q) (hd : decode bs = .command i rest) :
    step s = exec i (s.setInbox (requeue rest q)) := by
  simp [step, fetch_bytes h, fetchBytes, hd]

/-- Settles O6: the opcode says whether a command is defined, and its length column whether it is whole. -/
theorem decoderIsTotalOnByteStrings : Obligations.DecoderIsTotalOnByteStrings := by
  refine ⟨rfl, fun op tl hop => ?_, fun op tl hop hlen => ?_, fun op tl hop hlen => ?_,
    fun s bs q hin => ⟨fun op rest hd => ?_, fun i rest hd => ?_⟩, fun op => ⟨rfl, rfl⟩, fun tl => ⟨rfl, rfl, rfl⟩,
    fun a l0 l1 l2 l3 tl ha => ?_⟩
  · refine decode_reserved (fun hmem => ?_) tl
    obtain ⟨h1, h4⟩ := mem_opcodes_iff.mp hmem
    obtain rfl | h5 := hop
    · simp at h1
    · omega
  · obtain ⟨n, operands, hn, htake, hd⟩ := decode_defined (mem_opcodes_iff.mpr hop) tl
    rw [hd]
    exact htake.truncated (by rw [hn, List.length_cons] at hlen; omega)
  · obtain ⟨n, operands, hn, htake, hd⟩ := decode_defined (mem_opcodes_iff.mpr hop) tl
    rw [hd, hn, List.drop_succ_cons]
    exact htake.command (by rw [hn, List.length_cons] at hlen; omega)
  · obtain ⟨q', hstep⟩ := step_of_illegal hin hd
    exact ⟨_, hstep, rfl, rfl, rfl⟩
  · exact ⟨_, step_of_decoded_command hin hd, rfl, rfl, rfl⟩
  · rw [commandLength_xform, List.drop_left' ha, ← leNat_four]
    rfl

end Sys2Proof.Machine
end

section
/-! PROOF. The textual form (30_encoding.md R59): the first word of a line, the names of a command, and comments. -/

namespace Sys2Proof.Machine

/-! ## The first word of a line -/

/-- The character stands for itself within a word: it neither separates words nor begins a comment. -/
def isWordChar (c : Char) : Bool := !(c == ',' || c == '[' || c == ']' || c == ';' || isBlank c)

theorem isWordChar_iff (c : Char) :
    isWordChar c = true ↔ (c ≠ ',' ∧ c ≠ '[' ∧ c ≠ ']') ∧ c ≠ ';' ∧ isBlank c = false := by
  simp [isWordChar, and_assoc]

/-- The characters of a word are gathered into the word being read. -/
theorem tokens_append_word {m : List Char} (h : ∀ c ∈ m, isWordChar c = true) (cur rest : List Char) :
    tokens cur (m ++ rest) = tokens (cur ++ m) rest := by
  induction m generalizing cur with
  | nil => simp
  | cons c m ih =>
    obtain ⟨hc, hm⟩ := List.forall_mem_cons.mp h
    obtain ⟨⟨hcomma, hopen, hclose⟩, -, hblank⟩ := (isWordChar_iff c).mp hc
    simp [tokens, hcomma, hopen, hclose, hblank, ih hm]

theorem withoutComment_append_word {m : List Char} (h : ∀ c ∈ m, isWordChar c = true) (rest : List Char) :
    withoutComment (m ++ rest) = m ++ withoutComment rest :=
  List.takeWhile_append_of_pos fun c hc => by
    obtain ⟨-, hsemicolon, -⟩ := (isWordChar_iff c).mp (h c hc)
    simpa using hsemicolon

/-- A word before a blank is the line's first token. -/
theorem assemble_word_blank {m : List Char} (hne : m ≠ []) (h : ∀ c ∈ m, isWordChar c = true) (operands : List Char) :
    assemble (m ++ ' ' :: operands) = parseCommand (.word m :: tokens [] (withoutComment operands)) := by
  have hblank : withoutComment (' ' :: operands) = ' ' :: withoutComment operands := rfl
  have hflush (ts : List Token) : flushWord m ts = .word m :: ts := by
    cases m with
    | nil => exact absurd rfl hne
    | cons c cs => rfl
  rw [assemble, withoutComment_append_word h, tokens_append_word h, hblank]
  simp [tokens, isBlank, hflush]

/-! ## Mnemonics and their other names -/

theorem parseCommand_enc {m : List Char} (h : m ∈ [mnemonicEnc, nameComputeCheckCode, nameEncodeWord])
    (ts : List Token) : parseCommand (.word m :: ts) = parseEnc ts := by
  simp only [List.mem_cons, List.not_mem_nil, or_false] at h
  simp only [parseCommand, h, if_true]

theorem parseCommand_xform {m : List Char} (h : m ∈ [mnemonicXform, nameTransformImage]) (ts : List Token) :
    parseCommand (.word m :: ts) = parseXform ts := by
  simp only [List.mem_cons, List.not_mem_nil, or_false] at h
  obtain rfl | rfl := h <;> rfl

/-- A name of ENC before a blank, whatever the operands. -/
theorem assemble_enc {m : List Char} (h : m ∈ [mnemonicEnc, nameComputeCheckCode, nameEncodeWord])
    (operands : List Char) : assemble (m ++ ' ' :: operands) = parseEnc (tokens [] (withoutComment operands)) := by
  have hword : ∀ m ∈ [mnemonicEnc, nameComputeCheckCode, nameEncodeWord], m ≠ [] ∧ m.all isWordChar = true := by decide
  obtain ⟨hne, hchars⟩ := hword m h
  rw [assemble_word_blank hne (List.all_eq_true.mp hchars), parseCommand_enc h]

/-- A name of XFORM before a blank, whatever the operands. -/
theorem assemble_xform {m : List Char} (h : m ∈ [mnemonicXform, nameTransformImage]) (operands : List Char) :
    assemble (m ++ ' ' :: operands) = parseXform (tokens [] (withoutComment operands)) := by
  have hword : ∀ m ∈ [mnemonicXform, nameTransformImage], m ≠ [] ∧ m.all isWordChar = true := by decide
  obtain ⟨hne, hchars⟩ := hword m h
  rw [assemble_word_blank hne (List.all_eq_true.mp hchars), parseCommand_xform h]

/-! ## Comments -/

/-- From the first `;` onward nothing of a line is read. -/
theorem withoutComment_append_semicolon (line comment : List Char) :
    withoutComment (line ++ ';' :: comment) = withoutComment line := by
  induction line with
  | nil => rfl
  | cons c line ih =>
    simp only [withoutComment, List.cons_append, List.takeWhile_cons] at ih ⊢
    rw [ih]

/-- Settles O12: the examples by reading them, the names and the comments for every line. -/
theorem textualForm : Obligations.TextualForm := by
  refine ⟨by decide, by decide, by decide, by decide, by decide, fun operands => ⟨?_, ?_, ?_⟩,
    fun line comment => ?_⟩
  · rw [assemble_enc (by decide), assemble_enc (by decide)]
  · rw [assemble_enc (by decide), assemble_enc (by decide)]
  · rw [assemble_xform (by decide), assemble_xform (by decide)]
  · rw [assemble, withoutComment_append_semicolon, assemble]

end Sys2Proof.Machine
end

section
/-! PROOF. Parity and population count, bit by bit (00_scope.md R10). -/

namespace Sys2Proof.Machine

/-- An exclusive or over a list is the parity of the number of ones in it. -/
theorem foldl_xor_map_eq {α : Type} (p : α → Bool) (l : List α) (b : Bool) :
    (l.map p).foldl Bool.xor b = (b ^^ (l.countP p % 2 == 1)) := by
  induction l generalizing b with
  | nil => simp
  | cons a l ih =>
    rw [List.map_cons, List.foldl_cons, ih, List.countP_cons]
    rcases Nat.mod_two_eq_zero_or_one (l.countP p) with h | h <;> cases p a <;> cases b <;> simp [Nat.add_mod, h]

theorem parity_eq_foldl_xor {n : Nat} (v : BitVec n) :
    parity v = ((List.range n).map v.getLsbD).foldl Bool.xor false := by
  rw [foldl_xor_map_eq, Bool.false_xor]
  rfl

theorem popcount_mod_two {n : Nat} (v : BitVec n) : popcount v % 2 = (parity v).toNat := by
  rcases Nat.mod_two_eq_zero_or_one (popcount v) with h | h <;> simp [parity, h]

/-- `1 <<< i` has the one bit `i`. -/
theorem one_shiftLeft_getLsbD {n : Nat} (i : Nat) {j : Nat} (hj : j < n) : (1#n <<< i).getLsbD j = decide (i = j) := by
  rw [← BitVec.twoPow_eq, BitVec.getLsbD_twoPow]
  by_cases h : i = j <;> simp [h, hj]

theorem getLsbD_xor_one_shiftLeft {n : Nat} (v : BitVec n) {i : Nat} (hi : i < n) :
    (v ^^^ (1#n <<< i)).getLsbD i = !v.getLsbD i := by
  simp only [BitVec.getLsbD_xor, one_shiftLeft_getLsbD i hi, decide_true, Bool.xor_true]

/-- Clearing a set bit takes one from the population count. -/
theorem popcount_eq_clear_add_one {n : Nat} {v : BitVec n} {i : Nat} (hi : v.getLsbD i = true) :
    popcount v = popcount (v ^^^ (1#n <<< i)) + 1 := by
  have hlt : i < n := BitVec.lt_of_getLsbD hi
  have hperm := List.perm_cons_erase (List.mem_range.mpr hlt)
  have hrest : ∀ j ∈ (List.range n).erase i, v.getLsbD j = true ↔ (v ^^^ (1#n <<< i)).getLsbD j = true := by
    intro j hj
    obtain ⟨hne, hmem⟩ := List.nodup_range.mem_erase_iff.mp hj
    simp only [BitVec.getLsbD_xor, one_shiftLeft_getLsbD i (List.mem_range.mp hmem), hne.symm, decide_false,
      Bool.xor_false]
  simp only [popcount, hperm.countP_eq, List.countP_cons, List.countP_congr hrest, getLsbD_xor_one_shiftLeft v hlt, hi,
    Bool.not_true, if_true, Bool.false_eq_true, if_false, add_zero]

theorem exists_getLsbD_of_ne_zero {n : Nat} {v : BitVec n} (h : v ≠ 0#n) : ∃ i : Fin n, v.getLsbD i.val = true := by
  by_contra! hall
  exact h (BitVec.eq_of_getLsbD_eq fun i hi => by simpa using hall ⟨i, hi⟩)

/-- A single bit is odd. -/
theorem parity_one_shiftLeft {n i : Nat} (hi : i < n) : parity (1#n <<< i) = true := by
  have hbit : (1#n <<< i).getLsbD i = true := by rw [one_shiftLeft_getLsbD i hi, decide_eq_true rfl]
  rw [parity, popcount_eq_clear_add_one hbit, BitVec.xor_self]
  simp [popcount]

theorem popcount_pos_of_ne_zero {n : Nat} {v : BitVec n} (h : v ≠ 0#n) : 0 < popcount v := by
  obtain ⟨i, hi⟩ := exists_getLsbD_of_ne_zero h
  rw [popcount_eq_clear_add_one hi]
  exact Nat.succ_pos _

/-- The single-bit words at the set bits of `v` below `n` add up to `v` cut off at bit `n`. -/
theorem foldl_xor_set_bits_getLsbD (v : Word) (n : Nat) {j : Nat} (hj : j < 32) :
    ((((List.range n).filter v.getLsbD).map (fun i => 1#32 <<< i)).foldl (fun c d => c ^^^ d) 0#32).getLsbD j =
      (decide (j < n) && v.getLsbD j) := by
  induction n with
  | zero => simp
  | succ n ih =>
    rw [List.range_succ, List.filter_append, List.map_append, List.foldl_append]
    rcases lt_trichotomy j n with h | rfl | h
    · cases hv : v.getLsbD n <;> simp [hv, ih, one_shiftLeft_getLsbD n hj, h.ne', h, Nat.lt_succ_of_lt h]
    · cases hv : v.getLsbD j <;> simp [hv, ih, one_shiftLeft_getLsbD j hj]
    · cases hv : v.getLsbD n <;>
        simp [hv, ih, one_shiftLeft_getLsbD n hj, h.ne, h.not_gt, Nat.not_lt.mpr (Nat.succ_le_of_lt h)]

/-- A word is the exclusive or of the single-bit words at its set bits. -/
theorem foldl_xor_set_bits (w : Word) :
    (((List.range 32).filter w.getLsbD).map (fun i => 1#32 <<< i)).foldl (fun c d => c ^^^ d) 0#32 = w :=
  BitVec.eq_of_getLsbD_eq fun j hj => by simp only [foldl_xor_set_bits_getLsbD w 32 hj, hj, decide_true, Bool.true_and]

end Sys2Proof.Machine
end

section
/-! PROOF. The coverage table and the check code: its seven bits, its linearity, its range and command ENC
(40_word_coder.md R60 to R67). -/

namespace Sys2Proof.Machine

/-! ## The coverage table -/

/-- Settles O15: each mask is the sum of its set's powers of two, and the rest is the table as it stands. -/
theorem coverageTable : Obligations.CoverageTable :=
  ⟨by decide, rfl, rfl, rfl⟩

/-- The column of data bit `i`: its position, and the bit that makes the codeword even (R62's closed form). -/
theorem checkCode_column : ∀ i : Fin 32, checkCode (1#32 <<< i.val) =
    BitVec.ofNat 8 (codewordPosition i.val |||
      ((1 ^^^ (parity (BitVec.ofNat 6 (codewordPosition i.val))).toNat) <<< 6)) := by
  decide

/-- Settles O16: the positions and sets are evaluated, the columns by their closed form. -/
theorem coverageIsHammingConstruction : Obligations.CoverageIsHammingConstruction := by
  refine ⟨by decide, by decide, by decide, rfl, fun i => ?_, ?_⟩
  · rw [checkCode_column]
    revert i
    decide
  · rw [← List.map_coe_finRange_eq_range, List.map_map]
    simp only [Function.comp_def, checkCode_column]
    decide

theorem coverageSet_eq_filter_mask :
    ∀ k : Fin 6, coverageSet k = (List.range 32).filter (coverageMask k).getLsbD := by
  decide

/-! ## The seven parities -/

theorem locatorParity_eq_foldl_xor (w : Word) (k : Fin 6) :
    locatorParity w k = ((coverageSet k).map w.getLsbD).foldl Bool.xor false := by
  rw [foldl_xor_map_eq, Bool.false_xor, coverageSet_eq_filter_mask, List.countP_filter]
  simp only [locatorParity, parity, popcount, BitVec.getLsbD_and]

theorem overallParity_eq_foldl_xor (w : Word) : overallParity w =
    (((List.range 32).map w.getLsbD) ++ (List.finRange 6).map (locatorParity w)).foldl Bool.xor false := by
  rw [List.foldl_append, ← parity_eq_foldl_xor]
  rfl

theorem overallParity_eq_parity_xor (w : Word) :
    overallParity w = (parity w ^^ ((List.finRange 6).map (locatorParity w)).foldl Bool.xor false) := by
  rw [overallParity_eq_foldl_xor, List.foldl_append, ← parity_eq_foldl_xor, foldl_xor_map_eq, foldl_xor_map_eq,
    Bool.false_xor]

@[simp] theorem checkCode_getLsbD_locator (w : Word) (k : Fin 6) : (checkCode w).getLsbD k.val = locatorParity w k := by
  rw [checkCode_getLsbD, dif_pos k.isLt]

@[simp] theorem checkCode_getLsbD_six (w : Word) : (checkCode w).getLsbD 6 = overallParity w := by
  rw [checkCode_getLsbD, dif_neg (by decide), if_pos rfl]

@[simp] theorem checkCode_getLsbD_seven (w : Word) : (checkCode w).getLsbD 7 = false := by
  rw [checkCode_getLsbD, dif_neg (by decide), if_neg (by decide)]

/-- Seven bits in a byte, as the sum of their shifts (30_encoding.md R49). -/
theorem toNat_seven_bits : ∀ p0 p1 p2 p3 p4 p5 p6 : Bool,
    ((BitVec.ofBool p6 ++ BitVec.ofBool p5 ++ BitVec.ofBool p4 ++ BitVec.ofBool p3 ++ BitVec.ofBool p2 ++
      BitVec.ofBool p1 ++ BitVec.ofBool p0).setWidth 8).toNat =
    p0.toNat ||| (p1.toNat <<< 1) ||| (p2.toNat <<< 2) ||| (p3.toNat <<< 3) ||| (p4.toNat <<< 4) |||
      (p5.toNat <<< 5) ||| (p6.toNat <<< 6) := by
  decide

/-- Settles O17: each parity is the exclusive or of the bits its mask keeps, and each is one bit of the check byte. -/
theorem checkCodeIsTheSevenParities : Obligations.CheckCodeIsTheSevenParities := fun w =>
  ⟨fun k => ⟨locatorParity_eq_foldl_xor w k, rfl, checkCode_getLsbD_locator w k⟩, overallParity_eq_foldl_xor w,
    checkCode_getLsbD_six w, toNat_seven_bits _ _ _ _ _ _ _, checkCode_getLsbD_seven w, checkCode_le w⟩

/-! ## Linearity -/

theorem overallParity_xor (x y : Word) : overallParity (x ^^^ y) = (overallParity x ^^ overallParity y) := by
  have : Std.Commutative Bool.xor := ⟨Bool.xor_comm⟩
  simp only [overallParity, parity_xor, locatorParity_xor]
  ac_rfl

theorem checkCode_xor (x y : Word) : checkCode (x ^^^ y) = checkCode x ^^^ checkCode y := by
  apply BitVec.eq_of_getLsbD_eq
  intro j _
  simp only [BitVec.getLsbD_xor, checkCode_getLsbD, locatorParity_xor, overallParity_xor]
  split
  · rfl
  · split <;> rfl

theorem checkCode_zero : checkCode 0#32 = 0#8 := by decide

/-- The check code of an exclusive or of words is the exclusive or of their check codes. -/
theorem checkCode_foldl_xor (ws : List Word) (w : Word) :
    checkCode (ws.foldl (fun c d => c ^^^ d) w) = (ws.map checkCode).foldl (fun c d => c ^^^ d) (checkCode w) := by
  induction ws generalizing w with
  | nil => rfl
  | cons v ws ih => rw [List.foldl_cons, ih, checkCode_xor, List.map_cons, List.foldl_cons]

/-- Settles O18: additivity bit by bit, carried along the word's own set bits. -/
theorem checkCodeIsLinear : Obligations.CheckCodeIsLinear := by
  refine ⟨checkCode_zero, checkCode_xor, fun w => ?_⟩
  conv_lhs => rw [← foldl_xor_set_bits w, checkCode_foldl_xor, checkCode_zero, List.map_map]
  rfl

/-! ## Even weight -/

/-- `P6` makes the parity of the check byte that of the data (R64). -/
theorem parity_checkCode (w : Word) : parity (checkCode w) = parity w := by
  have hbits : (List.range 8).map (checkCode w).getLsbD =
      (List.finRange 6).map (locatorParity w) ++ [overallParity w, false] := by
    rw [← checkCode_getLsbD_six w, ← checkCode_getLsbD_seven w]
    simp only [← funext (checkCode_getLsbD_locator w)]
    rfl
  rw [parity_eq_foldl_xor, hbits, List.foldl_append, overallParity_eq_parity_xor]
  simp only [List.foldl_cons, List.foldl_nil, Bool.xor_false]
  rw [Bool.xor_left_comm, Bool.xor_self, Bool.xor_false]

theorem codeword_weight_mod_two (w : Word) : (popcount w + popcount (checkCode w)) % 2 = 0 := by
  have hw := popcount_mod_two w
  have hc := popcount_mod_two (checkCode w)
  rw [parity_checkCode] at hc
  omega

/-- Settles O19: the check byte has the parity of the data. -/
theorem codewordWeightIsEven : Obligations.CodewordWeightIsEven := fun w =>
  ⟨by rw [parity_checkCode, Bool.xor_self], codeword_weight_mod_two w⟩

/-! ## Range, and command ENC -/

/-- Settles O20: bit 7 is never written, and every command answers a next state. -/
theorem checkCodeRangeNeverFaults : Obligations.CheckCodeRangeNeverFaults := by
  refine ⟨fun w => ⟨checkCode_getLsbD_seven w, checkCode_le w⟩, fun i s c h => ?_⟩
  rw [exec_eq_stateAfter] at h
  cases h

/-- Settles O23: the assertion passes on a check code, and answering is all ENC does after it. -/
theorem encReturnsTheCheckCode : Obligations.EncReturnsTheCheckCode := by
  refine ⟨fun w s => assertCodes_checkCodes [w] _, fun w => ?_, by decide, by decide, by decide, by decide, by decide,
    by decide⟩
  exact Laws.EncodedLength.enc w rfl

end Sys2Proof.Machine
end

section
/-! PROOF. Errors in a codeword: what a flipped bit does to the locator difference and to the parity, and the code's
minimum distance (40_word_coder.md R68, R69). -/

namespace Sys2Proof.Machine

/-! ## Positions -/

theorem codewordPosition_bounds (i : Fin 32) : 3 ≤ codewordPosition i.val ∧ codewordPosition i.val ≤ 38 := by
  have hi := i.isLt
  unfold codewordPosition
  split_ifs <;> omega

theorem codewordPosition_injective {i j : Fin 32} (h : codewordPosition i.val = codewordPosition j.val) : i = j := by
  unfold codewordPosition at h
  apply Fin.ext
  split_ifs at h <;> omega

/-- The construction skips the positions reserved for the locator bits (R62). -/
theorem codewordPosition_ne_two_pow (i : Fin 32) (k : Nat) : codewordPosition i.val ≠ 2 ^ k := by
  have hlocator : ∀ (i : Fin 32) (k : Fin 6), codewordPosition i.val ≠ 2 ^ k.val := by decide
  rcases Nat.lt_or_ge k 6 with hk | hk
  · exact hlocator i ⟨k, hk⟩
  · have hlarge : 2 ^ 6 ≤ 2 ^ k := Nat.pow_le_pow_right (by decide) hk
    have := (codewordPosition_bounds i).2
    omega

/-- The 39 bits of a codeword have 39 positions. -/
theorem CodewordBit.position_injective {b d : CodewordBit} (h : b.position = d.position) : b = d := by
  have hdata (i : Fin 32) : codewordPosition i.val ≠ 0 := by have := (codewordPosition_bounds i).1; omega
  have hlocator (k : Fin 6) : 2 ^ k.val ≠ 0 := by positivity
  match b, d with
  | .data i, .data j => exact congrArg _ (codewordPosition_injective h)
  | .data i, .locator k => exact absurd h (codewordPosition_ne_two_pow i k)
  | .data i, .overall => exact absurd h (hdata i)
  | .locator k, .data i => exact absurd h.symm (codewordPosition_ne_two_pow i k)
  | .locator k, .locator l => exact congrArg _ (Fin.ext (Nat.pow_right_injective le_rfl h))
  | .locator k, .overall => exact absurd h (hlocator k)
  | .overall, .data i => exact absurd h.symm (hdata i)
  | .overall, .locator k => exact absurd h.symm (hlocator k)
  | .overall, .overall => rfl

/-! ## One flipped bit -/

theorem locatorField_xor (c d : Byte) : locatorField (c ^^^ d) = locatorField c ^^^ locatorField d := by
  simp only [locatorField, BitVec.extractLsb_xor, BitVec.toNat_xor]

theorem locatorField_column (i : Fin 32) : locatorField (checkCode (1#32 <<< i.val)) = codewordPosition i.val := by
  rw [checkCode_column]
  revert i
  decide

theorem locatorField_locator : ∀ k : Fin 6, locatorField (1#8 <<< k.val) = 2 ^ k.val := by decide

/-- A flipped bit adds its position to the locator difference, whatever bits were flipped before. -/
theorem Codeword.locatorDifference_flip (x : Codeword) (b : CodewordBit) :
    (x.flip b).locatorDifference = x.locatorDifference ^^^ b.position := by
  cases b with
  | data i =>
    simp only [locatorDifference, flip, CodewordBit.position, checkCode_xor, locatorField_xor, locatorField_column]
    ac_rfl
  | locator k =>
    simp only [locatorDifference, flip, CodewordBit.position, locatorField_xor, locatorField_locator, Nat.xor_assoc]
  | overall =>
    have hoverall : locatorField (1#8 <<< 6) = 0 := by decide
    simp only [locatorDifference, flip, CodewordBit.position, locatorField_xor, hoverall, Nat.xor_assoc]

/-- A flipped bit changes the parity. -/
theorem Codeword.parityBit_flip (x : Codeword) (b : CodewordBit) : (x.flip b).parityBit = !x.parityBit := by
  cases b with
  | data i => simp only [parityBit, flip, parity_xor, parity_one_shiftLeft i.isLt, Bool.xor_true, Bool.not_xor]
  | locator k =>
    have hk : k.val < 8 := by omega
    simp only [parityBit, flip, parity_xor, parity_one_shiftLeft hk, Bool.xor_true, Bool.xor_not]
  | overall =>
    have hsix : 6 < 8 := by decide
    simp only [parityBit, flip, parity_xor, parity_one_shiftLeft hsix, Bool.xor_true, Bool.xor_not]

theorem locatorDifference_codewordOf (w : Word) : (codewordOf w).locatorDifference = 0 := by
  simp [Codeword.locatorDifference, codewordOf, locatorField]

theorem parityBit_codewordOf (w : Word) : (codewordOf w).parityBit = false := by
  simp [Codeword.parityBit, codewordOf, parity_checkCode]

/-- One error: the locator difference is its position. -/
theorem locatorDifference_single (w : Word) (b : CodewordBit) :
    ((codewordOf w).flip b).locatorDifference = b.position := by
  rw [Codeword.locatorDifference_flip, locatorDifference_codewordOf, Nat.zero_xor]

/-- Settles O21: the locator difference of a codeword is 0, and a flipped bit adds its position. -/
theorem singleErrorIsLocated : Obligations.SingleErrorIsLocated := by
  refine ⟨fun w i => ?_, fun i j => codewordPosition_injective, fun i => ?_, locatorDifference_single,
    fun b d => CodewordBit.position_injective⟩
  · rw [BitVec.xor_comm]
    exact locatorDifference_single w (.data i)
  · obtain ⟨hlow, hhigh⟩ := codewordPosition_bounds i
    exact ⟨by omega, codewordPosition_ne_two_pow i, hlow, hhigh⟩

/-! ## Two flipped bits -/

/-- Two errors: the locator difference is the exclusive or of their positions. -/
theorem locatorDifference_double (w : Word) (b d : CodewordBit) :
    (((codewordOf w).flip b).flip d).locatorDifference = b.position ^^^ d.position := by
  rw [Codeword.locatorDifference_flip, locatorDifference_single]

theorem position_xor_ne_zero {b d : CodewordBit} (h : b ≠ d) : b.position ^^^ d.position ≠ 0 :=
  fun hzero => h (CodewordBit.position_injective (Nat.xor_eq_zero_iff.mp hzero))

/-- Two flipped data bits change the locator field of the check code by their positions' exclusive or. -/
theorem locatorField_double_data (w : Word) (i j : Fin 32) :
    locatorField (checkCode w ^^^ checkCode (w ^^^ (1#32 <<< i.val) ^^^ (1#32 <<< j.val))) =
      codewordPosition i.val ^^^ codewordPosition j.val := by
  rw [BitVec.xor_comm]
  exact locatorDifference_double w (.data i) (.data j)

theorem checkCode_double_ne (w : Word) {i j : Fin 32} (h : i ≠ j) :
    checkCode w ≠ checkCode (w ^^^ (1#32 <<< i.val) ^^^ (1#32 <<< j.val)) := by
  intro heq
  have hfield := locatorField_double_data w i j
  rw [← heq, BitVec.xor_self] at hfield
  exact position_xor_ne_zero (b := .data i) (d := .data j) (by simpa using h) hfield.symm

/-! ## The minimum distance -/

theorem three_le_column_popcount (i : Fin 32) : 3 ≤ popcount (checkCode (1#32 <<< i.val)) := by
  rw [checkCode_column]
  revert i
  decide

/-- A codeword that is not zero has at least three ones: one data bit has a column of three, and the columns of two data
bits differ. -/
theorem three_le_weight {z : Word} (hz : z ≠ 0#32) : 3 ≤ popcount z + popcount (checkCode z) := by
  obtain ⟨i, hi⟩ := exists_getLsbD_of_ne_zero hz
  have hcount := popcount_eq_clear_add_one hi
  by_cases hone : z ^^^ (1#32 <<< i.val) = 0#32
  · rw [BitVec.xor_eq_zero_iff.mp hone]
    exact (three_le_column_popcount i).trans (Nat.le_add_left _ _)
  · obtain ⟨j, hj⟩ := exists_getLsbD_of_ne_zero hone
    have hcount' := popcount_eq_clear_add_one hj
    have hij : i ≠ j := by
      rintro rfl
      simp only [getLsbD_xor_one_shiftLeft z i.isLt, hi, Bool.not_true, Bool.false_eq_true] at hj
    by_cases htwo : z ^^^ (1#32 <<< i.val) ^^^ (1#32 <<< j.val) = 0#32
    · have hne := checkCode_double_ne z hij
      rw [htwo, checkCode_zero] at hne
      have := popcount_pos_of_ne_zero hne
      omega
    · have := popcount_pos_of_ne_zero htwo
      omega

/-- Even weight turns three into four. -/
theorem four_le_weight {z : Word} (hz : z ≠ 0#32) : 4 ≤ popcount z + popcount (checkCode z) := by
  have := three_le_weight hz
  have := codeword_weight_mod_two z
  omega

/-- Settles O22: by the positions of the two bits; the distance of two codewords is the weight of their sum. -/
theorem doubleErrorIsDetected : Obligations.DoubleErrorIsDetected := by
  refine ⟨fun w i j hij => ?_, fun w b d hbd => ⟨?_, ?_⟩, fun x y hxy => ?_, 0, 1, by decide, by decide⟩
  · exact ⟨locatorField_double_data w i j, position_xor_ne_zero (b := .data i) (d := .data j) (by simpa using hij),
      checkCode_double_ne w hij⟩
  · rw [Codeword.parityBit_flip, Codeword.parityBit_flip, parityBit_codewordOf]
    rfl
  · rw [locatorDifference_double]
    exact position_xor_ne_zero hbd
  · rw [← checkCode_xor]
    exact four_le_weight (mt BitVec.xor_eq_zero_iff.mp hxy)

end Sys2Proof.Machine
end

section
/-! PROOF. Runs of commands, and the run of GROUPs: the state each leaves (41_block_layout.md R77, R80). -/

namespace Sys2Proof.Machine

/-- START with a non-negative address seeds the counter and answers. -/
theorem stateAfter_start {a : Int} (ha : 0 ≤ a) (s : State) : stateAfter (.start a) s =
    { s with cnt := some (a % 32).toNat, responses := s.responses ++ [.ok .nothing] } := by
  simp [stateAfter, cntAfter_start ha, responseTo, not_lt.mpr ha, startOffset_eq]

theorem stateAfter_start_of_neg {a : Int} (ha : a < 0) (s : State) :
    stateAfter (.start a) s = { s with responses := s.responses ++ [.error (.address a)] } :=
  stateAfter_eq_respond (by simp [cntAfter, ha]) rfl (by simp [responseTo, ha])

/-- GROUP with the counter seeded is one group step on the block's pair. -/
theorem stateAfter_groupCommand (g : Group) {c : Nat} {s : State} (hc : s.cnt = some c) :
    stateAfter (groupCommand g) s = { s with
      cnt := some (groupStep c g).1
      out := s.out ++ (groupStep c g).2
      responses := s.responses ++ [.ok .nothing] } := by
  simp [stateAfter, groupCommand, cntAfter, emittedBy, responseTo, hc]

theorem stateAfter_group_of_unseeded (b0 b1 b2 b3 : Byte) {s : State} (hc : s.cnt = none) :
    stateAfter (.group b0 b1 b2 b3) s = { s with responses := s.responses ++ [.error .notStarted] } :=
  stateAfter_eq_respond (by simp [cntAfter, hc]) (by simp [emittedBy, hc]) (by simp [responseTo, hc])

/-- The state a run of commands leaves. -/
def stateAfterAll (is : List Instr) (s : State) : State := is.foldl (fun t i => stateAfter i t) s

@[simp] theorem stateAfterAll_nil (s : State) : stateAfterAll [] s = s := rfl

@[simp] theorem stateAfterAll_cons (i : Instr) (is : List Instr) (s : State) :
    stateAfterAll (i :: is) s = stateAfterAll is (stateAfter i s) := rfl

theorem stateAfterAll_append (is js : List Instr) (s : State) :
    stateAfterAll (is ++ js) s = stateAfterAll js (stateAfterAll is s) := List.foldl_append

/-- No run stops. -/
theorem execAll_eq_stateAfterAll (is : List Instr) (s : State) : execAll is s = .next (stateAfterAll is s) := by
  induction is generalizing s with
  | nil => rfl
  | cons i is ih => rw [execAll_cons, ih, stateAfterAll_cons]

/-- A run of GROUPs from a seeded counter appends the layout of the groups and leaves its counter, with one OK
response per group. -/
theorem stateAfterAll_groups (gs : List Group) {c : Nat} {s : State} (hc : s.cnt = some c) :
    stateAfterAll (gs.map groupCommand) s = { s with
      cnt := some (layout c gs).1
      out := s.out ++ (layout c gs).2
      responses := s.responses ++ List.replicate gs.length (.ok .nothing) } := by
  induction gs generalizing c s with
  | nil => simp [← hc]
  | cons g gs ih =>
    rw [List.map_cons, stateAfterAll_cons, stateAfter_groupCommand g hc, ih rfl, layout_cons]
    simp [List.replicate_succ]

/-- A region: START and then its GROUPs, whatever the counter before. -/
theorem stateAfterAll_region {a : Int} (ha : 0 ≤ a) (gs : List Group) (s : State) :
    stateAfterAll (.start a :: gs.map groupCommand) s = { s with
      cnt := some (layout (a % 32).toNat gs).1
      out := s.out ++ (layout (a % 32).toNat gs).2
      responses := s.responses ++ List.replicate (gs.length + 1) (.ok .nothing) } := by
  rw [stateAfterAll_cons, stateAfter_start ha, stateAfterAll_groups gs rfl]
  simp [List.replicate_succ]

end Sys2Proof.Machine
end

section
/-! PROOF. START, GROUP and the group step's filler (41_block_layout.md R71 to R74, R78). -/

namespace Sys2Proof.Machine

/-- Settles O24: START's two cases, each with its whole next state. -/
theorem startSeedsTheCounter : Obligations.StartSeedsTheCounter := by
  refine ⟨fun a s ha => ?_, fun a ha => by omega, fun a s ha => ?_, fun a => ⟨rfl, ?_⟩, by decide,
    fun s p hp => ?_, fun a s ha => ?_, fun a a' s t u ha' ht hu => ?_⟩
  · rw [exec_eq_stateAfter, stateAfter_start ha]
  · rw [exec_eq_stateAfter, stateAfter_start_of_neg ha]
  · simp [encode, operandBytes, addressField]
  · have hcorners : ∀ p ∈ [((0 : Int), 0), (31, 31), (32, 0), (30, 30), (0x1019, 25)],
        0 ≤ p.1 ∧ (p.1 % 32).toNat = p.2 := by decide
    obtain ⟨hnonneg, hoffset⟩ := hcorners p hp
    obtain ⟨t, ht, hcnt, -⟩ := exec_start_cnt s hnonneg
    exact ⟨t, ht, hoffset ▸ hcnt⟩
  · rw [exec_eq_stateAfter, exec_eq_stateAfter, stateAfter_start (by omega), stateAfter_start (by omega),
      Int.emod_emod_of_dvd a (dvd_refl 32)]
  · obtain rfl := eq_stateAfter_of_exec ht
    obtain rfl := eq_stateAfter_of_exec hu
    simp [cntAfter_start ha', startOffset_eq]

theorem groupStep_snd_length (c : Nat) (g : Group) : (groupStep c g).2.length = if c + 5 = 30 then 7 else 5 := by
  rw [groupStep_snd]
  split <;> rfl

/-- Settles O25: the step's two cases; its length tells them apart. -/
theorem groupStepTestsExactly30 : Obligations.GroupStepTestsExactly30 := by
  intro c b0 b1 b2 b3
  refine ⟨groupStep_filled c _, groupStep_plain c _, ?_, ?_⟩ <;>
    · rw [groupStep_snd_length]
      split <;> omega

/-- After a run of GROUPs from a counter past 25, one GROUP more emits no filler. -/
theorem group_after_groups_of_gt (gs : List Group) (g : Group) {c : Nat} {s : State} (hc : s.cnt = some c)
    (hgt : 25 < c) : ∃ t u, execAll (gs.map groupCommand) s = .next t ∧ exec (groupCommand g) t = .next u ∧
      u.out = t.out ++ groupBytes g ∧ u.cnt = some (c + 5 * (gs.length + 1)) := by
  have hcnt : (layout c gs).1 = c + 5 * gs.length := layout_fst_of_misses (by omega) gs
  refine ⟨_, _, execAll_eq_stateAfterAll _ s, exec_eq_stateAfter _ _, ?_⟩
  rw [stateAfterAll_groups gs hc, stateAfter_groupCommand g rfl, hcnt, groupStep_plain _ g (by omega)]
  exact ⟨rfl, congrArg some (by omega)⟩

theorem groupBytes_zero :
    groupBytes ⟨0x00#8, 0x00#8, 0x00#8, 0x00#8⟩ = [0x00#8, 0x00#8, 0x00#8, 0x00#8, 0x00#8] := by decide

/-- Settles O26: GROUP's two cases, each with its whole next state, by the group step's own equations. -/
theorem groupEncodesOneGroup : Obligations.GroupEncodesOneGroup := by
  refine ⟨fun b0 b1 b2 b3 c s hc => ?_, fun b0 b1 b2 b3 s hc => ?_, fun b0 b1 b2 b3 => ⟨rfl, rfl⟩, by decide,
    fun g s hc => ?_, fun gs g s hc => ?_, fun c => ?_, fun c c' g => ?_, by decide⟩
  · have h := stateAfter_groupCommand ⟨b0, b1, b2, b3⟩ hc
    rw [groupStep_fst, groupStep_snd, ← List.append_assoc] at h
    exact (exec_eq_stateAfter _ s).trans (congrArg _ h)
  · rw [exec_eq_stateAfter, stateAfter_group_of_unseeded b0 b1 b2 b3 hc]
  · refine ⟨_, exec_eq_stateAfter _ s, ?_⟩
    rw [stateAfter_groupCommand g hc, groupStep_filled 25 g rfl, ← List.append_assoc]
    exact ⟨rfl, rfl⟩
  · obtain ⟨c, hc, hgt⟩ : ∃ c, s.cnt = some c ∧ 25 < c := by
      rcases hc with hc | hc <;> exact ⟨_, hc, by omega⟩
    obtain ⟨t, u, ht, hu, hout, hcnt⟩ := group_after_groups_of_gt gs g hc hgt
    have hadvance : ∀ n, gs = [] → s.cnt = some n → u.cnt = some (n + 5) := by
      rintro n rfl hn
      obtain rfl := Option.some.inj (hc.symm.trans hn)
      exact hcnt
    exact ⟨t, u, ht, hu, hout, hadvance 30, hadvance 31⟩
  · by_cases hc : c = 25
    · subst hc
      decide
    · rw [groupStep_plain c _ (by omega), if_neg hc, groupBytes_zero]
  · rw [groupStep_snd, groupStep_snd, List.take_left' (groupBytes_length g), List.take_left' (groupBytes_length g)]

/-- Settles O27: of all a step can do, only a reset event and a seeded GROUP write the output. -/
theorem fillerOnlyAfterTheGroupThatReaches30 : Obligations.FillerOnlyAfterTheGroupThatReaches30 := by
  refine ⟨rfl, fun s t h => ?_⟩
  obtain ⟨q, hstep | ⟨op, hstep⟩ | ⟨i, hfetch, hstep⟩ | ⟨hfetch, hstep⟩⟩ := step_cases s <;> rw [hstep] at h
  · cases h
    exact .inl rfl
  · cases h
    exact .inl rfl
  · obtain rfl := eq_stateAfter_of_exec h
    by_cases hemit : emittedBy i s.cnt = []
    · exact .inl (by simp [hemit])
    · obtain ⟨b0, b1, b2, b3, c, rfl, hc, hbytes⟩ := emittedBy_ne_nil hemit
      refine .inr (.inr ⟨_, b0, b1, b2, b3, c, hfetch, hc, ?_⟩)
      rw [stateAfter_out, State.setInbox_cnt, State.setInbox_out, hbytes, groupStep_snd, filler_eq, List.append_assoc]
  · cases h
    exact .inr (.inl ⟨_, hfetch, rfl⟩)

end Sys2Proof.Machine
end

section
/-! PROOF. The counter's cycle from aligned offsets and its overshoot from the others (41_block_layout.md R75, R76). -/

namespace Sys2Proof.Machine

/-- From an aligned offset the counter is taken modulo 30. -/
theorem layout_fst_of_aligned {c : Nat} (hc : c ∈ alignedOffsets) (gs : List Group) :
    (layout c gs).1 = (c + 5 * gs.length) % 30 := by
  induction gs generalizing c with
  | nil =>
    have := mem_alignedOffsets.mp hc
    simp only [layout_nil, List.length_nil]
    omega
  | cons g gs ih =>
    rw [layout_cons, ih (groupStep_fst_mem_alignedOffsets hc g), groupStep_fst, List.length_cons]
    split <;> omega

/-- The counter comes to 30 only from an aligned offset, and from each of those it does. -/
theorem exists_layout_reaches_30_iff (r : Nat) : (∃ gs : List Group, (layout r gs).1 + 5 = 30) ↔ r ∈ alignedOffsets := by
  constructor
  · rintro ⟨gs, hgs⟩
    by_contra hr
    have hmiss := misses_of_not_mem_alignedOffsets hr
    rw [layout_fst_of_misses hmiss] at hgs
    exact hmiss gs.length (by omega)
  · intro hr
    refine ⟨List.replicate ((25 - r) / 5) ⟨0, 0, 0, 0⟩, ?_⟩
    rw [layout_fst_of_aligned hr, List.length_replicate]
    have := mem_alignedOffsets.mp hr
    omega

/-- Filler follows a group exactly when it brings the counter to 30. -/
theorem groupStep_snd_eq_filled_iff (c : Nat) (g : Group) :
    (groupStep c g).2 = groupBytes g ++ filler ↔ c + 5 = 30 := by
  rw [groupStep_snd, List.append_cancel_left_eq, filler_eq]
  simp

/-- Settles O28: by the counter's value modulo 30 after each number of groups. -/
theorem alignedCounterCycles : Obligations.AlignedCounterCycles := by
  refine ⟨fun r _ => exists_layout_reaches_30_iff r, fun q hq gs g => ?_⟩
  have hmem : 5 * q ∈ alignedOffsets := mem_alignedOffsets.mpr (by omega)
  have hcnt := layout_fst_of_aligned hmem gs
  refine ⟨hmem, hcnt, ?_, ?_⟩ <;> rw [groupStep_snd_eq_filled_iff, hcnt]
  · omega
  · refine ⟨fun h => ⟨(q + gs.length) / 6, by omega⟩, ?_⟩
    rintro ⟨m, hm⟩
    omega

/-- A counter whose advances all miss 30 emits the groups' bytes alone. -/
theorem layout_snd_of_misses {c : Nat} (h : ∀ k, c + 5 * (k + 1) ≠ 30) (gs : List Group) :
    (layout c gs).2 = gs.flatMap groupBytes := by
  induction gs generalizing c with
  | nil => rfl
  | cons g gs ih =>
    have hnext : ∀ k, c + 5 + 5 * (k + 1) ≠ 30 := fun k => by
      have := h (k + 1)
      omega
    rw [layout_cons, groupStep_plain c g (h 0), ih hnext, List.flatMap_cons]

/-- Thirty-two groups without filler begin at every block offset once: 13 is the inverse of 5 modulo 32. -/
theorem exists_group_at_blockOffset (a : Int) {v : Nat} (hv : v < 32) :
    ∃ g < 32, blockOffset (placeAt a (5 * g)) = v := by
  refine ⟨(13 * (v - a) % 32).toNat, by omega, ?_⟩
  rw [blockOffset_placeAt]
  omega

/-- Settles O29: the advances miss 30, and the groups, five bytes apart, meet every block offset. -/
theorem overshootEmitsNoFiller : Obligations.OvershootEmitsNoFiller := by
  refine ⟨by decide, fun r _ hr gs => ?_, fun a _ _ => ⟨?_, ?_, ?_⟩⟩
  · have hmiss := misses_of_not_mem_alignedOffsets hr
    have hcnt := layout_fst_of_misses hmiss gs
    refine ⟨Prod.ext hcnt (layout_snd_of_misses hmiss gs), ?_⟩
    rw [hcnt]
    exact hmiss gs.length
  · obtain ⟨g, hg, hoff⟩ := exists_group_at_blockOffset a (v := 28) (by omega)
    exact ⟨g, hg, by omega⟩
  · obtain ⟨g, hg, hoff⟩ := exists_group_at_blockOffset a (v := 30) (by omega)
    exact ⟨g, hg, 0, by omega, hoff⟩
  · obtain ⟨g, hg, hoff⟩ := exists_group_at_blockOffset a (v := 31) (by omega)
    exact ⟨g, hg, 0, by omega, hoff⟩

end Sys2Proof.Machine
end

section
/-! PROOF. XFORM's response: its three cases, the length checked first (41_block_layout.md R82), and its independence of
the state (R84). -/

namespace Sys2Proof.Machine

/-- XFORM adds its response and changes nothing else. -/
theorem exec_xform (image : List Byte) (a : Int) (s : State) : exec (.xform image a) s =
    .next { s with responses := s.responses ++ [responseTo (.xform image a) none] } :=
  (exec_eq_stateAfter _ s).trans (congrArg _ (stateAfter_eq_respond rfl rfl rfl))

theorem responseTo_xform_bad_length {image : List Byte} (h : image.length = 0 ∨ image.length % 4 ≠ 0) (a : Int)
    (cnt : Option Nat) : responseTo (.xform image a) cnt = .error (.inputLength image.length) := by
  have hbad : imageLengthOk image = false := by
    rw [Bool.eq_false_iff, ne_eq, imageLengthOk_iff]
    omega
  simp [responseTo, hbad]

section
variable {image : List Byte} (hne : image.length ≠ 0) (hlen : image.length % 4 = 0) (cnt : Option Nat)
include hne hlen

theorem responseTo_xform_neg {a : Int} (ha : a < 0) : responseTo (.xform image a) cnt = .error (.address a) := by
  simp [responseTo, (imageLengthOk_iff image).mpr ⟨hne, hlen⟩, ha]

theorem responseTo_xform_ok {a : Int} (ha : 0 ≤ a) :
    responseTo (.xform image a) cnt = .ok (.bytes (transform image a)) := by
  simp [responseTo, (imageLengthOk_iff image).mpr ⟨hne, hlen⟩, not_lt.mpr ha]

end

/-- A bad length or a negative address never gives an OK (20_memory.md R33). -/
theorem responseTo_xform_isOk_eq_false {image : List Byte} {a : Int} (cnt : Option Nat)
    (h : image.length = 0 ∨ image.length % 4 ≠ 0 ∨ a < 0) : (responseTo (.xform image a) cnt).isOk = false := by
  by_cases hbad : image.length = 0 ∨ image.length % 4 ≠ 0
  · rw [responseTo_xform_bad_length hbad]
    rfl
  · rw [responseTo_xform_neg (by omega) (by omega) cnt (by omega)]
    rfl

/-- Settles O33: the three cases of XFORM's response. -/
theorem xformChecksTheLengthFirst : Obligations.XformChecksTheLengthFirst := by
  refine ⟨fun image a s h => ?_, fun image a s hne hlen ha => ?_, fun n => ⟨rfl, rfl⟩, fun image bs a s h hok => ?_⟩
  · rw [exec_xform, responseTo_xform_bad_length h]
  · rw [exec_xform, responseTo_xform_neg hne hlen none ha]
  · have herror := responseTo_xform_isOk_eq_false none h
    rw [exec_xform] at hok
    have hresp : responseTo (.xform image a) none = .ok (.bytes bs) := by simpa using hok
    rw [hresp] at herror
    cases herror

/-- Two offsets the same, one response. -/
theorem responseTo_xform_congr (image : List Byte) {a a' : Int} (ha : 0 ≤ a) (ha' : 0 ≤ a') (hoff : a % 32 = a' % 32)
    (cnt : Option Nat) : responseTo (.xform image a) cnt = responseTo (.xform image a') cnt := by
  simp [responseTo, not_lt.mpr ha, not_lt.mpr ha', transform, startOffset_eq, hoff]

/-- Two runs from the same pair, one without its pure commands, end with the same pair. -/
theorem stateAfterAll_filter_impure (is : List Instr) {s s' : State} (hcnt : s'.cnt = s.cnt) (hout : s'.out = s.out) :
    (stateAfterAll (is.filter fun i => !isPure i) s').cnt = (stateAfterAll is s).cnt ∧
      (stateAfterAll (is.filter fun i => !isPure i) s').out = (stateAfterAll is s).out := by
  induction is generalizing s s' with
  | nil => exact ⟨hcnt, hout⟩
  | cons i is ih =>
    cases hpure : isPure i with
    | true =>
      obtain ⟨hkeep, hsilent, -⟩ := isPure_keeps_pair_and_ignores_counter hpure s.cnt s.cnt
      rw [List.filter_cons_of_neg (by simp [hpure]), stateAfterAll_cons]
      exact ih (by rw [stateAfter_cnt, hkeep, hcnt]) (by rw [stateAfter_out, hsilent, List.append_nil, hout])
    | false =>
      rw [List.filter_cons_of_pos (by simp [hpure]), stateAfterAll_cons, stateAfterAll_cons]
      exact ih (by rw [stateAfter_cnt, stateAfter_cnt, hcnt]) (by rw [stateAfter_out, stateAfter_out, hcnt, hout])

/-- Settles O35: the response reads no state, and a pure command keeps the pair every later command reads. -/
theorem xformIsPure : Obligations.XformIsPure := by
  refine ⟨fun image a a' ha ha' hoff => ⟨responseTo (.xform image a) none, fun s => ⟨exec_xform image a s, ?_⟩⟩,
    fun is s => ?_⟩
  · rw [exec_xform, responseTo_xform_congr image ha ha' hoff]
  · exact ⟨_, _, execAll_eq_stateAfterAll is s, execAll_eq_stateAfterAll _ s, stateAfterAll_filter_impure is rfl rfl⟩

end Sys2Proof.Machine
end

section
/-! PROOF. The output of XFORM: the loop of R81, its length (R85) and its bytes by index (R86) of 41_block_layout.md. -/

namespace Sys2Proof.Machine

/-- `layout` is the loop of R81, accumulating the counter and the bytes. -/
theorem foldl_groupStep_eq_layout (gs : List Group) (c : Nat) (bs : List Byte) :
    gs.foldl (fun (acc : Nat × List Byte) g => ((groupStep acc.1 g).1, acc.2 ++ (groupStep acc.1 g).2)) (c, bs) =
      ((layout c gs).1, bs ++ (layout c gs).2) := by
  induction gs generalizing c bs with
  | nil => simp
  | cons g gs ih => simp [ih, layout_cons]

/-- The transform as the loop of R81 over the image's indices. -/
theorem transform_eq_foldl_range (image : List Byte) (a : Int) :
    transform image a = ((List.range (image.length / 4)).foldl (fun (acc : Nat × List Byte) g =>
      ((groupStep acc.1 (groupAt image g)).1, acc.2 ++ (groupStep acc.1 (groupAt image g)).2))
      ((a % 32).toNat, [])).2 := by
  have h := foldl_groupStep_eq_layout (groupsOf image) (a % 32).toNat []
  rw [groupsOf_eq_map_groupAt, List.foldl_map] at h
  rw [h, transform, startOffset_eq, groupsOf_eq_map_groupAt, List.nil_append]

/-- The output is as long as the index of the group that would come next (R85). -/
theorem transform_length (image : List Byte) (a : Int) :
    (transform image a).length = groupIndex (a % 32).toNat (image.length / 4) := by
  rw [transform, layout_snd_length, groupsOf_length, startOffset_eq]

/-- Settles O37: the index after the last group. -/
theorem outputLength : Obligations.OutputLength :=
  fun image a _ _ => transform_length image a

/-- Six groups from offset 0 fill one block, the filler last. -/
theorem layout_zero_six_groups_drop {gs : List Group} (h : gs.length = 6) :
    (layout 0 gs).2.drop 30 = [0x00#8, 0x00#8] := by
  match gs, h with
  | [_, _, _, _, _, _], _ => rfl

/-- R81's corner cases. -/
theorem transform_length_corners (image : List Byte) (a : Int) :
    (image.length = 4 → a = 0 → (transform image a).length = 5) ∧
    (image.length = 4 → a % 32 = 25 → (transform image a).length = 7) ∧
    (image.length = 24 → a = 0 → (transform image a).length = 32 ∧ (transform image a).drop 30 = [0x00#8, 0x00#8]) ∧
    (image.length = 28 → a = 0 → (transform image a).length = 37) ∧
    ((a % 32).toNat ∉ alignedOffsets → (transform image a).length = 5 * (image.length / 4)) := by
  rw [transform_length]
  refine ⟨?_, ?_, ?_, ?_, fun hr => ?_⟩
  · rintro hlen rfl
    rw [hlen]
    rfl
  · intro hlen ha
    rw [hlen, ha]
    rfl
  · rintro hlen rfl
    rw [hlen]
    exact ⟨rfl, layout_zero_six_groups_drop (by rw [groupsOf_length, hlen])⟩
  · rintro hlen rfl
    rw [hlen]
    rfl
  · rw [groupIndex, fillersBefore, if_neg hr, Nat.mul_zero, Nat.add_zero]

/-- Settles O32: the three cases of XFORM's response, the transform as the rule's loop. -/
theorem xformTransformsTheImage : Obligations.XformTransformsTheImage := by
  refine ⟨fun image a s hne hlen ha => ?_, fun image a s h => ?_, fun image a s hne hlen ha => ?_,
    fun image a => ⟨rfl, ?_⟩, by decide, fun image a _ => transform_length_corners image a, by decide⟩
  · rw [exec_xform, responseTo_xform_ok hne hlen none ha, transform_eq_foldl_range]
  · rw [exec_xform, responseTo_xform_bad_length h]
  · rw [exec_xform, responseTo_xform_neg hne hlen none ha]
  · simp [encode, operandBytes, addressField]
    omega

/-- Settles O38: the places of groups and fillers in a layout, over the groups of the image. -/
theorem outputContent : Obligations.OutputContent := by
  intro image a _ _
  rw [transform, startOffset_eq]
  refine ⟨fun g hg => ?_, fun j hj hout => ?_⟩
  · have hg' : g < (groupsOf image).length := by rwa [groupsOf_length]
    rw [memRead_layout_groupIndex _ hg', groupsOf_getElem, groupBytes, groupData_groupAt hg, groupCode]
  · rw [← groupsOf_length] at hout ⊢
    exact layout_byte_outside_groups _ hj hout

end Sys2Proof.Machine
end

section
/-! PROOF. Streams: several regions one after the other, and streaming against XFORM (41_block_layout.md R77, R80). -/

namespace Sys2Proof.Machine

/-- Settles O30: region by region, each from its own START. -/
theorem regionsConcatenate : Obligations.RegionsConcatenate := by
  intro regions s hregions
  refine ⟨_, execAll_eq_stateAfterAll _ s, ?_⟩
  induction regions generalizing s with
  | nil => simp
  | cons p regions ih =>
    obtain ⟨ha, hlater⟩ := List.forall_mem_cons.mp hregions
    rw [List.flatMap_cons, List.flatMap_cons, stateAfterAll_append, ih _ hlater, stateAfterAll_region ha,
      List.append_assoc]

/-- The stream of an image is one region of its groups. -/
theorem streamCommands_eq_region (image : List Byte) (a : Int) :
    streamCommands image a = .start a :: (groupsOf image).map groupCommand := by
  rw [streamCommands, groupsOf_eq_map_groupAt, List.map_map]
  rfl

/-- Settles O31: the stream's region and XFORM lay out the same groups from the same offset. -/
theorem streamingEqualsXform : Obligations.StreamingEqualsXform := by
  intro image a s hne hlen ha
  refine ⟨_, _, transform image a, execAll_eq_stateAfterAll _ s, ?_, ?_, exec_xform image a s, ?_⟩
  · rw [streamCommands_eq_region, stateAfterAll_region ha, transform, startOffset_eq]
  · refine ⟨List.replicate (image.length / 4 + 1) (.ok .nothing), ?_, List.length_replicate,
      fun r => List.eq_of_mem_replicate⟩
    rw [streamCommands_eq_region, stateAfterAll_region ha, groupsOf_length]
  · rw [responseTo_xform_ok hne hlen none ha]

end Sys2Proof.Machine
end

section
/-! PROOF. Responses and errors: a command ends with its result or changes nothing, and no error outlives its response
(60_exceptions.md R89, R92, R97, R98). -/

namespace Sys2Proof.Machine

/-- Settles O34: on a negative address START and XFORM raise the error; on any other they answer from the offset. -/
theorem addressMattersOnlyModulo32 : Obligations.AddressMattersOnlyModulo32 := by
  refine ⟨fun a s ha => ⟨?_, fun image hne hlen => ?_⟩, fun a => ⟨rfl, rfl⟩,
    fun a s ha => ⟨⟨_, exec_eq_stateAfter _ s, ?_⟩, fun image hne hlen => ⟨_, transform image a, exec_xform image a s, ?_⟩⟩,
    fun a a' s ha ha' hoff => ⟨?_, fun image => ?_⟩⟩
  · rw [exec_eq_stateAfter, stateAfter_start_of_neg ha]
  · rw [exec_xform, responseTo_xform_neg hne hlen none ha]
  · rw [stateAfter_start ha]
  · rw [responseTo_xform_ok hne hlen none ha]
  · rw [exec_eq_stateAfter, exec_eq_stateAfter, stateAfter_start ha, stateAfter_start ha', hoff]
  · rw [exec_xform, exec_xform, responseTo_xform_congr image ha ha' hoff]

/-- The value a command returns when it ends with status OK (60_exceptions.md R89). -/
def resultOf : Instr → Result
  | .enc w => .checkByte (checkCode w)
  | .start _ => .nothing
  | .group _ _ _ _ => .nothing
  | .xform image a => .bytes (transform image a)

/-- A command answers its result, or it answers an error and keeps the pair of R13 (60_exceptions.md R97). -/
theorem responseTo_ok_or_error_keeps_pair (i : Instr) (cnt : Option Nat) :
    responseTo i cnt = .ok (resultOf i) ∨
      ∃ e, responseTo i cnt = .error e ∧ cntAfter i cnt = cnt ∧ emittedBy i cnt = [] := by
  cases i with
  | enc w => exact .inl rfl
  | start a =>
    rcases lt_or_ge a 0 with ha | ha
    · exact .inr ⟨.address a, if_pos ha, if_pos ha, rfl⟩
    · exact .inl (if_neg (not_lt.mpr ha))
  | group b0 b1 b2 b3 =>
    cases cnt with
    | none => exact .inr ⟨.notStarted, rfl, rfl, rfl⟩
    | some c => exact .inl rfl
  | xform image a =>
    by_cases hbad : image.length = 0 ∨ image.length % 4 ≠ 0
    · exact .inr ⟨_, responseTo_xform_bad_length hbad a cnt, rfl, rfl⟩
    · obtain ⟨hne, hlen⟩ : image.length ≠ 0 ∧ image.length % 4 = 0 := by omega
      rcases lt_or_ge a 0 with ha | ha
      · exact .inr ⟨_, responseTo_xform_neg hne hlen cnt ha, rfl, rfl⟩
      · exact .inl (responseTo_xform_ok hne hlen cnt ha)

theorem eq_resultOf_of_responseTo_ok {i : Instr} {cnt : Option Nat} {v : Result} (h : responseTo i cnt = .ok v) :
    v = resultOf i := by
  obtain hok | ⟨e, herror, -, -⟩ := responseTo_ok_or_error_keeps_pair i cnt
  · exact Response.ok.inj (h.symm.trans hok)
  · cases h.symm.trans herror

/-- A command that answers an error does nothing but raise it. -/
theorem stateAfter_of_error {i : Instr} {s : State} {e : CommandError} (h : responseTo i s.cnt = .error e) :
    stateAfter i s = s.raise e := by
  obtain hok | ⟨e', -, hcnt, hout⟩ := responseTo_ok_or_error_keeps_pair i s.cnt
  · cases h.symm.trans hok
  · exact stateAfter_eq_respond hcnt hout h

/-- Settles O43: the one response is `responseTo`, the command's result or an error that changes nothing else. -/
theorem everyCommandAnswersOnce : Obligations.EveryCommandAnswersOnce := by
  intro i s
  refine ⟨stateAfter i s, responseTo i s.cnt, exec_eq_stateAfter i s, rfl, rfl, fun e he => ?_, fun v hv => ?_⟩
  · rw [stateAfter_of_error he]
    exact ⟨rfl, rfl⟩
  · obtain rfl := eq_resultOf_of_responseTo_ok hv
    cases i <;> rfl

/-- Settles O45: an error leaves the counter, the output and the inbox as they were, and no command reads more. -/
theorem errorsAreNotSticky : Obligations.ErrorsAreNotSticky := by
  intro i s t e hexec hresp
  obtain rfl := eq_stateAfter_of_exec hexec
  have herror : responseTo i s.cnt = .error e := by simpa using hresp
  rw [stateAfter_of_error herror]
  refine ⟨?_, fun j u hj => ?_⟩
  · have hagain : responseTo i (s.raise e).cnt = .error e := herror
    rw [exec_eq_stateAfter, stateAfter_of_error hagain]
    rfl
  · obtain rfl := eq_stateAfter_of_exec hj
    exact ⟨stateAfter j (s.raise e), responseTo j s.cnt, exec_eq_stateAfter j _, rfl, rfl, rfl, rfl, rfl⟩

end Sys2Proof.Machine
end

section
/-! PROOF. Reset and the unseeded counter: only a START leads out of it (70_reset_and_hazards.md R103, R105). -/

namespace Sys2Proof.Machine

theorem step_of_reset {s : State} {q : List Request} (h : s.inbox = .reset :: q) :
    step s = .next (s.setInbox q).resetEvent := by
  simp [step, fetch_reset h]

/-- The answer of a pure command does not depend on the state, so it can be read off the unseeded counter. -/
theorem stateAfter_of_isPure {i : Instr} (h : isPure i = true) (s : State) :
    stateAfter i s = { s with responses := s.responses ++ [responseTo i none] } := by
  obtain ⟨hcnt, hout, hresp⟩ := isPure_keeps_pair_and_ignores_counter h s.cnt none
  exact stateAfter_eq_respond hcnt hout hresp

/-- Only a START with a non-negative address seeds an unseeded counter. -/
theorem cntAfter_none {i : Instr} (h : ∀ a, i = .start a → a < 0) : cntAfter i none = none := by
  cases i with
  | start a => exact if_pos (h a rfl)
  | enc _ | group _ _ _ _ | xform _ _ => rfl

theorem stateAfterAll_cnt_of_unseeded {is : List Instr} (hstart : ∀ a, Instr.start a ∈ is → a < 0) {s : State}
    (hcnt : s.cnt = none) : (stateAfterAll is s).cnt = none := by
  induction is generalizing s with
  | nil => exact hcnt
  | cons i is ih =>
    have hfirst : cntAfter i none = none := cntAfter_none fun a hi => hstart a (hi ▸ List.mem_cons_self)
    have hlater : ∀ a, Instr.start a ∈ is → a < 0 := fun a ha => hstart a (List.mem_cons_of_mem i ha)
    rw [stateAfterAll_cons]
    exact ih hlater (by rw [stateAfter_cnt, hcnt, hfirst])

/-- Settles O1: the values `State.reset` gives the pair are those the reset event writes. -/
theorem powerOnIsTheResetState : Obligations.PowerOnIsTheResetState :=
  ⟨State.reset_cnt, State.reset_out, fun s => ⟨s.resetEvent_cnt, s.resetEvent_out⟩⟩

/-- Settles O2: the unseeded counter survives every command but a START with a non-negative address, by induction on
the run, and GROUP answers ERR_NOT_STARTED from it. -/
theorem afterResetGroupNeedsStart : Obligations.AfterResetGroupNeedsStart := by
  refine ⟨fun s q h => ⟨_, step_of_reset h, rfl, rfl⟩, fun i hpure => ⟨responseTo i none, fun s => ?_⟩,
    fun is s hcnt hstart => ?_⟩
  · rw [exec_eq_stateAfter, stateAfter_of_isPure hpure]
  · have hunseeded := stateAfterAll_cnt_of_unseeded hstart hcnt
    refine ⟨stateAfterAll is s, execAll_eq_stateAfterAll is s, hunseeded, fun b0 b1 b2 b3 => ?_⟩
    rw [exec_eq_stateAfter, stateAfter_group_of_unseeded b0 b1 b2 b3 hunseeded]

end Sys2Proof.Machine
end

section
/-! PROOF. The binary form and the decoder are inverse to each other (30_encoding.md R53 to R58). -/

namespace Sys2Proof.Machine

@[simp] theorem addressField_length (a : Int) : (addressField a).length = 8 := leBytes_length 8 _

/-! ## From a command to its bytes and back -/

theorem wellFormed_xform_iff (image : List Byte) (a : Int) :
    (Instr.xform image a).wellFormed = true ↔ addressFits a = true ∧ image.length < 2 ^ 32 := by
  simp only [Instr.wellFormed, lengthFits, Bool.and_eq_true, decide_eq_true_eq]

/-- A field as wide as its value holds it. -/
theorem leNat_leBytes_of_lt {n v : Nat} (h : v < 256 ^ n) : leNat (leBytes n v) = v := by
  rw [leNat_leBytes, Nat.mod_eq_of_lt h]

/-- Settles O7: by the command, each field read back from its own bytes. -/
theorem decodeOfEncode : Obligations.DecodeOfEncode := by
  intro i rest hwf
  cases i with
  | enc w =>
    have hw : leNat (leBytes 4 w.toNat) = w.toNat := leNat_leBytes_of_lt w.isLt
    have h := decodeEnc_append (leBytes_length 4 w.toNat) rest
    rw [hw, BitVec.ofNat_toNat, BitVec.setWidth_eq] at h
    exact congrArg (finishCommand opEnc) h
  | start a =>
    have h := decodeStart_append (addressField_length a) rest
    rw [sext64_addressField a hwf] at h
    exact congrArg (finishCommand opStart) h
  | group b0 b1 b2 b3 => rfl
  | xform image a =>
    obtain ⟨ha, hlen⟩ := (wellFormed_xform_iff image a).mp hwf
    have hl : image.length = leNat (leBytes 4 image.length) := (leNat_leBytes_of_lt hlen).symm
    have h := decodeXform_append (addressField_length a) (leBytes_length 4 image.length) hl rest
    rw [sext64_addressField a ha] at h
    simp only [encode, opcodeOf, operandBytes, List.cons_append, List.append_assoc, decode_xform, h, finishCommand]

/-! ## From bytes to a command and back -/

/-- Writing back the value of a field of known length gives the field. -/
theorem leBytes_leNat_of_length {n : Nat} {f : List Byte} (h : f.length = n) : leBytes n (leNat f) = f := by
  rw [← h, leBytes_leNat]

theorem addressFits_sext64 (n : Nat) : addressFits (sext64 n) = true :=
  decide_eq_true ⟨BitVec.le_toInt (BitVec.ofNat 64 n), BitVec.toInt_lt⟩

/-- Every eight bytes are the address field of the address read from them. -/
theorem addressField_sext64 {f : List Byte} (h : f.length = 8) : addressField (sext64 (leNat f)) = f := by
  have hlt : leNat f < 2 ^ 64 := by simpa [h] using leNat_lt f
  rw [addressField, sext64, BitVec.ofInt_toInt, BitVec.toNat_ofNat, Nat.mod_eq_of_lt hlt, leBytes_leNat_of_length h]

/-- `i` is a well-formed command of opcode `op`, and `tl` its operand bytes followed by `rest`. -/
def IsWrittenAs (op : Byte) (i : Instr) (tl rest : List Byte) : Prop :=
  opcodeOf i = op ∧ i.wellFormed = true ∧ tl = operandBytes i ++ rest

theorem isWrittenAs_of_decodeEnc {tl rest : List Byte} {i : Instr} (h : decodeEnc tl = some (i, rest)) :
    IsWrittenAs opEnc i tl rest := by
  unfold decodeEnc at h
  split at h
  next w rest' hw =>
    cases h
    obtain ⟨rfl, hlen⟩ := takeField_eq_some.mp hw
    have hlt : leNat w < 2 ^ 32 := by simpa [hlen] using leNat_lt w
    refine ⟨rfl, rfl, ?_⟩
    rw [operandBytes, BitVec.toNat_ofNat, Nat.mod_eq_of_lt hlt, leBytes_leNat_of_length hlen]
  next => cases h

theorem isWrittenAs_of_decodeStart {tl rest : List Byte} {i : Instr} (h : decodeStart tl = some (i, rest)) :
    IsWrittenAs opStart i tl rest := by
  unfold decodeStart at h
  split at h
  next a rest' ha =>
    cases h
    obtain ⟨rfl, hlen⟩ := takeField_eq_some.mp ha
    exact ⟨rfl, addressFits_sext64 _, by rw [operandBytes, addressField_sext64 hlen]⟩
  next => cases h

theorem isWrittenAs_of_decodeGroup {tl rest : List Byte} {i : Instr} (h : decodeGroup tl = some (i, rest)) :
    IsWrittenAs opGroup i tl rest := by
  unfold decodeGroup at h
  split at h
  next => cases h; exact ⟨rfl, rfl, rfl⟩
  next => cases h

theorem isWrittenAs_of_decodeXform {tl rest : List Byte} {i : Instr} (h : decodeXform tl = some (i, rest)) :
    IsWrittenAs opXform i tl rest := by
  unfold decodeXform at h
  split at h
  next => cases h
  next a afterA ha =>
    obtain ⟨rfl, halen⟩ := takeField_eq_some.mp ha
    split at h
    next => cases h
    next l afterL hl =>
      obtain ⟨rfl, hllen⟩ := takeField_eq_some.mp hl
      split at h
      next => cases h
      next image rest' himage =>
        cases h
        obtain ⟨rfl, hlen⟩ := takeField_eq_some.mp himage
        have hlt : image.length < 2 ^ 32 := by simpa [hlen, hllen] using leNat_lt l
        refine ⟨rfl, (wellFormed_xform_iff _ _).mpr ⟨addressFits_sext64 _, hlt⟩, ?_⟩
        rw [operandBytes, addressField_sext64 halen, hlen, leBytes_leNat_of_length hllen, List.append_assoc,
          List.append_assoc]

theorem eq_some_of_finishCommand_eq_command {op : Byte} {operands : Option (Instr × List Byte)} {i : Instr}
    {rest : List Byte} (h : finishCommand op operands = .command i rest) : operands = some (i, rest) := by
  unfold finishCommand at h
  split at h <;> cases h
  rfl

/-- What the decoder reads as a command is that command, written. -/
theorem isWrittenAs_of_decode {op : Byte} {tl rest : List Byte} {i : Instr}
    (h : decode (op :: tl) = .command i rest) : IsWrittenAs op i tl rest := by
  obtain ⟨-, hd⟩ | ⟨rfl, hd⟩ | ⟨rfl, hd⟩ | ⟨rfl, hd⟩ | ⟨rfl, hd⟩ := decode_cases op tl <;> rw [hd] at h
  · cases h
  · exact isWrittenAs_of_decodeEnc (eq_some_of_finishCommand_eq_command h)
  · exact isWrittenAs_of_decodeStart (eq_some_of_finishCommand_eq_command h)
  · exact isWrittenAs_of_decodeGroup (eq_some_of_finishCommand_eq_command h)
  · exact isWrittenAs_of_decodeXform (eq_some_of_finishCommand_eq_command h)

/-- Settles O8: by the opcode, each field written back from the value read. -/
theorem encodeOfDecoded : Obligations.EncodeOfDecoded := by
  intro bs rest i h
  cases bs with
  | nil => cases h
  | cons op tl =>
    obtain ⟨rfl, hwf, rfl⟩ := isWrittenAs_of_decode h
    exact ⟨hwf, rfl⟩

end Sys2Proof.Machine
end

section
/-! PROOF. Reading a command's text gives the command back: digits, words, and the operands of each command
(30_encoding.md R59). -/

namespace Sys2Proof.Machine

/-! ## Hexadecimal digits -/

theorem digitValue_hexDigit {d : Nat} (h : d < 16) : digitValue 16 (hexDigit d) = some d := by
  have hall : ∀ d : Fin 16, digitValue 16 (hexDigit d.val) = some d.val := by decide
  exact hall ⟨d, h⟩

theorem isWordChar_hexDigit {d : Nat} (h : d < 16) : isWordChar (hexDigit d) = true := by
  have hall : ∀ d : Fin 16, isWordChar (hexDigit d.val) = true := by decide
  exact hall ⟨d, h⟩

theorem digitsValue_append_digit {base acc v d : Nat} {cs : List Char} {c : Char}
    (hcs : digitsValue base acc cs = some v) (hc : digitValue base c = some d) :
    digitsValue base acc (cs ++ [c]) = some (v * base + d) := by
  induction cs generalizing acc with
  | nil =>
    obtain rfl := Option.some.inj hcs
    simp [digitsValue, hc]
  | cons x xs ih =>
    rw [digitsValue] at hcs
    rw [List.cons_append, digitsValue]
    split at hcs
    next hx => exact ih hcs
    next => cases hcs

theorem digitsValue_hexDigits (n v : Nat) : digitsValue 16 0 (hexDigits n v) = some (v % 16 ^ n) := by
  induction n generalizing v with
  | zero => simp [hexDigits, digitsValue, Nat.mod_one]
  | succ n ih =>
    have hdigit : digitValue 16 (hexDigit (v % 16)) = some (v % 16) := digitValue_hexDigit (by omega)
    rw [hexDigits, digitsValue_append_digit (ih (v / 16)) hdigit, pow_succ', Nat.mod_mul, Nat.add_comm, Nat.mul_comm]

theorem isWordChar_of_mem_hexDigits {n v : Nat} {c : Char} (h : c ∈ hexDigits n v) : isWordChar c = true := by
  induction n generalizing v with
  | zero => cases h
  | succ n ih =>
    rw [hexDigits, List.mem_append, List.mem_singleton] at h
    obtain h | rfl := h
    · exact ih h
    · exact isWordChar_hexDigit (by omega)

/-! ## Numbers -/

/-- A word: at least one character, and each stands for itself. -/
def IsWord (w : List Char) : Prop := w ≠ [] ∧ ∀ c ∈ w, isWordChar c = true

theorem isWord_hexText (n v : Nat) : IsWord (hexText n v) := by
  refine ⟨List.cons_ne_nil _ _, fun c hc => ?_⟩
  simp only [hexText, List.mem_cons] at hc
  obtain rfl | rfl | hc := hc
  · rfl
  · rfl
  · exact isWordChar_of_mem_hexDigits hc

theorem isWord_addressText (a : Int) : IsWord (addressText a) := by
  obtain ⟨-, hchars⟩ := isWord_hexText 16 a.natAbs
  rw [addressText]
  split
  · exact ⟨List.cons_ne_nil _ _, List.forall_mem_cons.mpr ⟨rfl, hchars⟩⟩
  · exact isWord_hexText 16 a.natAbs

theorem numberOf_hexText {n v : Nat} (hn : n ≠ 0) (h : v < 16 ^ n) : numberOf (hexText n v) = some v := by
  have hne : hexDigits n v ≠ [] := by
    cases n with
    | zero => exact absurd rfl hn
    | succ n => simp [hexDigits]
  simp [numberOf, hexText, hne, digitsValue_hexDigits, Nat.mod_eq_of_lt h]

theorem byteOf_hexText (b : Byte) : byteOf (hexText 2 b.toNat) = some b := by
  have hb := b.isLt
  simp [byteOf, numberOf_hexText (n := 2) (by omega) hb, hb]

theorem wordOf_hexText (w : Word) : wordOf (hexText 8 w.toNat) = some w := by
  have hw := w.isLt
  simp [wordOf, numberOf_hexText (n := 8) (by omega) hw, hw]

theorem addressOf_minus {ds : List Char} {n : Nat} (h : numberOf ds = some n) :
    addressOf ('-' :: ds) = some (-(n : Int)) := by
  simp [addressOf, h]

theorem addressOf_hexText {k v n : Nat} (h : numberOf (hexText k v) = some n) :
    addressOf (hexText k v) = some (n : Int) := by
  rw [hexText] at h ⊢
  simp [addressOf, h]

theorem addressOf_addressText {a : Int} (h : addressFits a = true) : addressOf (addressText a) = some a := by
  simp only [addressFits, decide_eq_true_eq] at h
  have hnum : numberOf (hexText 16 a.natAbs) = some a.natAbs := numberOf_hexText (by omega) (by omega)
  by_cases ha : a < 0
  · rw [addressText, if_pos ha, addressOf_minus hnum]
    exact congrArg some (by omega)
  · rw [addressText, if_neg ha, addressOf_hexText hnum]
    exact congrArg some (by omega)

/-! ## Words in a line -/

/-- The text `e` ends the word before it: nothing, or a separator first. -/
def EndsWord (e : List Char) : Prop := ∀ cur, tokens cur e = flushWord cur (tokens [] e)

theorem endsWord_nil : EndsWord [] := fun cur => by simp [tokens, flushWord]

theorem endsWord_comma (cs : List Char) : EndsWord (',' :: cs) := fun cur => by simp [tokens, flushWord]

theorem endsWord_closeBracket (cs : List Char) : EndsWord (']' :: cs) := fun cur => by simp [tokens, flushWord]

theorem tokens_comma_blank (cs : List Char) : tokens [] (',' :: ' ' :: cs) = .comma :: tokens [] cs := by
  simp [tokens, flushWord, isBlank]

/-- A word before a separator is one token. -/
theorem tokens_word {w e : List Char} (hw : IsWord w) (he : EndsWord e) :
    tokens [] (w ++ e) = .word w :: tokens [] e := by
  obtain ⟨hne, hchars⟩ := hw
  rw [tokens_append_word hchars, List.nil_append, he]
  cases w with
  | nil => exact absurd rfl hne
  | cons c cs => rfl

/-- A word alone is one token. -/
theorem tokens_of_isWord {w : List Char} (hw : IsWord w) : tokens [] w = [.word w] := by
  have hend := tokens_word hw endsWord_nil
  rwa [List.append_nil] at hend

/-- The token of a byte as `bytesText` writes it. -/
def byteToken (b : Byte) : Token := .word (hexText 2 b.toNat)

/-- The tokens of the bytes after the first, each behind its comma. -/
def moreByteTokens (bs : List Byte) : List Token := bs.flatMap fun b => [.comma, byteToken b]

theorem tokens_bytesText {e : List Char} (he : EndsWord e) (b : Byte) (bs : List Byte) :
    tokens [] (bytesText (b :: bs) ++ e) = byteToken b :: (moreByteTokens bs ++ tokens [] e) := by
  induction bs generalizing b with
  | nil => exact tokens_word (isWord_hexText 2 b.toNat) he
  | cons b' bs ih =>
    have htext : bytesText (b :: b' :: bs) ++ e = hexText 2 b.toNat ++ ',' :: ' ' :: (bytesText (b' :: bs) ++ e) := by
      simp [bytesText]
    rw [htext, tokens_word (isWord_hexText 2 b.toNat) (endsWord_comma _), tokens_comma_blank, ih]
    rfl

theorem parseMoreBytes_tokens (bs : List Byte) : parseMoreBytes (moreByteTokens bs ++ [.closeBracket]) = some bs := by
  induction bs with
  | nil => rfl
  | cons b bs ih =>
    have hcons : moreByteTokens (b :: bs) ++ [.closeBracket] =
      .comma :: byteToken b :: (moreByteTokens bs ++ [.closeBracket]) := rfl
    rw [hcons]
    simp only [byteToken, parseMoreBytes, byteOf_hexText, ih]

theorem parseBytes_tokens (bs : List Byte) : parseBytes (tokens [] (bytesText bs ++ [']'])) = some bs := by
  cases bs with
  | nil => rfl
  | cons b bs =>
    have hclose : tokens [] [']'] = [.closeBracket] := rfl
    rw [tokens_bytesText (endsWord_closeBracket []), hclose]
    simp only [byteToken, parseBytes, byteOf_hexText, parseMoreBytes_tokens]

/-! ## A line without a comment -/

theorem withoutComment_eq_self {cs : List Char} (h : ';' ∉ cs) : withoutComment cs = cs := by
  refine List.takeWhile_eq_self_iff.mpr fun c hc => ?_
  have hne : c ≠ ';' := fun heq => h (heq ▸ hc)
  simpa using hne

theorem IsWord.semicolon_notMem {w : List Char} (h : IsWord w) : ';' ∉ w := fun hmem => by
  have hword := h.2 _ hmem
  cases hword

theorem semicolon_notMem_bytesText (bs : List Byte) : ';' ∉ bytesText bs := by
  induction bs using bytesText.induct with
  | case1 => exact List.not_mem_nil
  | case2 b => exact (isWord_hexText 2 b.toNat).semicolon_notMem
  | case3 b bs hne ih => simp [bytesText, ih, (isWord_hexText 2 b.toNat).semicolon_notMem]

/-- A mnemonic with operands that hold no comment. -/
theorem assemble_mnemonic {m operands : List Char}
    (hm : m ∈ [mnemonicEnc, mnemonicStart, mnemonicGroup, mnemonicXform]) (h : ';' ∉ operands) :
    assemble (m ++ ' ' :: operands) = parseCommand (.word m :: tokens [] operands) := by
  have hword : ∀ m ∈ [mnemonicEnc, mnemonicStart, mnemonicGroup, mnemonicXform],
      m ≠ [] ∧ m.all isWordChar = true := by decide
  obtain ⟨hne, hchars⟩ := hword m hm
  rw [assemble_word_blank hne (List.all_eq_true.mp hchars), withoutComment_eq_self h]

/-! ## Each command -/

theorem assemble_render_enc (w : Word) : assemble (render (.enc w)) = some (.enc w) := by
  have hw := isWord_hexText 8 w.toNat
  rw [render, assemble_mnemonic (by decide) hw.semicolon_notMem, tokens_of_isWord hw, parseCommand_enc (by decide),
    parseEnc, wordOf_hexText, Option.map_some]

theorem assemble_render_start {a : Int} (h : addressFits a = true) :
    assemble (render (.start a)) = some (.start a) := by
  have ha := isWord_addressText a
  have hparse (ts : List Token) : parseCommand (.word mnemonicStart :: ts) = parseStart ts := rfl
  rw [render, assemble_mnemonic (by decide) ha.semicolon_notMem, tokens_of_isWord ha, hparse, parseStart,
    addressOf_addressText h, Option.map_some]

theorem assemble_render_group (b0 b1 b2 b3 : Byte) :
    assemble (render (.group b0 b1 b2 b3)) = some (.group b0 b1 b2 b3) := by
  have hparse (ts : List Token) : parseCommand (.word mnemonicGroup :: ts) = parseGroup ts := rfl
  have htokens : tokens [] (bytesText [b0, b1, b2, b3]) =
      [byteToken b0, .comma, byteToken b1, .comma, byteToken b2, .comma, byteToken b3] := by
    have h := tokens_bytesText endsWord_nil b0 [b1, b2, b3]
    rwa [List.append_nil] at h
  rw [render, assemble_mnemonic (by decide) (semicolon_notMem_bytesText _), htokens, hparse]
  simp only [byteToken, parseGroup, byteOf_hexText]

theorem assemble_render_xform (image : List Byte) {a : Int} (h : addressFits a = true) :
    assemble (render (.xform image a)) = some (.xform image a) := by
  have ha := isWord_addressText a
  have hsemicolon : ';' ∉ addressText a ++ [',', ' ', '['] ++ bytesText image ++ [']'] := by
    simp [ha.semicolon_notMem, semicolon_notMem_bytesText]
  have hopen (cs : List Char) : tokens [] ('[' :: cs) = .openBracket :: tokens [] cs := by simp [tokens, flushWord]
  have htokens : tokens [] (addressText a ++ [',', ' ', '['] ++ bytesText image ++ [']']) =
      .word (addressText a) :: .comma :: .openBracket :: tokens [] (bytesText image ++ [']']) := by
    have htext : addressText a ++ [',', ' ', '['] ++ bytesText image ++ [']'] =
        addressText a ++ ',' :: ' ' :: '[' :: (bytesText image ++ [']']) := by simp
    rw [htext, tokens_word ha (endsWord_comma _), tokens_comma_blank, hopen]
  rw [render, assemble_mnemonic (by decide) hsemicolon, htokens, parseCommand_xform (by decide)]
  simp only [parseXform, addressOf_addressText h, parseBytes_tokens]

/-- Settles O13: each command's text read back, its operands by their digits. -/
theorem assembleOfRender : Obligations.AssembleOfRender := by
  intro i hwf
  cases i with
  | enc w => exact assemble_render_enc w
  | start a => exact assemble_render_start hwf
  | group b0 b1 b2 b3 => exact assemble_render_group b0 b1 b2 b3
  | xform image a =>
    obtain ⟨ha, -⟩ := (wellFormed_xform_iff image a).mp hwf
    exact assemble_render_xform image ha

end Sys2Proof.Machine
end

section
/-! PROOF. The invariant: the output is made of whole groups, and every response is one its command may answer
(30_encoding.md R50, 60_exceptions.md R89, R90). -/

namespace Sys2Proof.Machine

/-! ## The stream of whole groups -/

/-- One group step, with or without its filler, keeps a stream of whole groups. -/
theorem GroupStream.append_groupStep {bs : List Byte} (h : GroupStream bs) (c : Nat) (g : Group) :
    GroupStream (bs ++ (groupStep c g).2) := by
  by_cases hc : c + 5 = 30
  · rw [groupStep_filled c g hc]
    exact .filledGroup bs g h
  · rw [groupStep_plain c g hc]
    exact .group bs g h

theorem GroupStream.append_layout {bs : List Byte} (h : GroupStream bs) (c : Nat) (gs : List Group) :
    GroupStream (bs ++ (layout c gs).2) := by
  induction gs generalizing bs c with
  | nil => simpa using h
  | cons g gs ih =>
    rw [layout_cons, ← List.append_assoc]
    exact ih (h.append_groupStep c g) _

theorem GroupStream.append_emittedBy {bs : List Byte} (h : GroupStream bs) (i : Instr) (cnt : Option Nat) :
    GroupStream (bs ++ emittedBy i cnt) := by
  by_cases hemit : emittedBy i cnt = []
  · rwa [hemit, List.append_nil]
  · obtain ⟨b0, b1, b2, b3, c, -, -, hbytes⟩ := emittedBy_ne_nil hemit
    rw [hbytes]
    exact h.append_groupStep c _

theorem groupStream_transform (image : List Byte) (a : Int) : GroupStream (transform image a) :=
  GroupStream.empty.append_layout (startOffset a) (groupsOf image)

/-! ## Legal responses -/

theorem transform_ne_nil {image : List Byte} (hne : image.length ≠ 0) (hlen : image.length % 4 = 0) (a : Int) :
    transform image a ≠ [] := by
  have hlong := five_mul_le_transform_length image a
  exact List.ne_nil_of_length_pos (by omega)

theorem responseTo_xform_legal (image : List Byte) (a : Int) (cnt : Option Nat) :
    (responseTo (.xform image a) cnt).Legal := by
  by_cases hbad : image.length = 0 ∨ image.length % 4 ≠ 0
  · rw [responseTo_xform_bad_length hbad]
    exact hbad
  · obtain ⟨hne, hlen⟩ : image.length ≠ 0 ∧ image.length % 4 = 0 := by omega
    rcases lt_or_ge a 0 with ha | ha
    · rw [responseTo_xform_neg hne hlen cnt ha]
      exact ha
    · rw [responseTo_xform_ok hne hlen cnt ha]
      exact ⟨transform_ne_nil hne hlen a, groupStream_transform image a⟩

theorem responseTo_legal (i : Instr) (cnt : Option Nat) : (responseTo i cnt).Legal := by
  cases i with
  | enc w => exact ⟨w, rfl⟩
  | start a =>
    rw [responseTo]
    split
    next ha => exact ha
    next => trivial
  | group b0 b1 b2 b3 => cases cnt <;> trivial
  | xform image a => exact responseTo_xform_legal image a cnt

/-! ## The invariant -/

theorem State.Inv.setInbox {s : State} (h : s.Inv) (q : List Request) : (s.setInbox q).Inv := h

theorem State.Inv.respond {s : State} (h : s.Inv) {r : Response} (hr : r.Legal) : (s.respond r).Inv := by
  obtain ⟨hout, hresp⟩ := h
  refine ⟨hout, fun r' hmem => ?_⟩
  rw [State.respond_responses, List.mem_append, List.mem_singleton] at hmem
  obtain hmem | rfl := hmem
  · exact hresp r' hmem
  · exact hr

theorem State.Inv.resetEvent {s : State} (h : s.Inv) : s.resetEvent.Inv := ⟨.empty, h.2⟩

/-- A command's effect on the invariant: whole groups appended, and one legal response. -/
theorem State.Inv.stateAfter {s : State} (h : s.Inv) (i : Instr) : (stateAfter i s).Inv :=
  ⟨h.1.append_emittedBy i s.cnt, (h.respond (responseTo_legal i s.cnt)).2⟩

/-- Settles O53: nothing emitted, nothing answered. -/
theorem resetMeetsTheInvariant : Obligations.ResetMeetsTheInvariant :=
  ⟨.empty, fun _ hmem => absurd hmem List.not_mem_nil⟩

/-- Settles O54: each thing a step can do keeps the invariant. -/
theorem stepKeepsTheInvariant : Obligations.StepKeepsTheInvariant := by
  intro s t hinv hstep
  obtain ⟨q, h | ⟨op, h⟩ | ⟨i, -, h⟩ | ⟨-, h⟩⟩ := step_cases s <;> rw [h] at hstep
  · cases hstep
    exact hinv.setInbox q
  · cases hstep
    exact (hinv.setInbox q).respond trivial
  · obtain rfl := eq_stateAfter_of_exec hstep
    exact (hinv.setInbox q).stateAfter i
  · cases hstep
    exact (hinv.setInbox q).resetEvent

end Sys2Proof.Machine
end

section
/-! PROOF. A step as a function of what is fetched, and what stays in the inbox (30_encoding.md R57,
20_memory.md R45). -/

namespace Sys2Proof.Machine

/-- The state a step leaves, from what it has taken off the inbox. -/
def stateAfterFetch : Fetched → State
  | .idle t => t
  | .illegal op t => t.raise (.illegalOp op)
  | .run i t => stateAfter i t
  | .resetNow t => t.resetEvent

/-- Every step, from every state, answers a next state. -/
theorem step_eq_stateAfterFetch (s : State) : step s = .next (stateAfterFetch (fetch s)) := by
  rw [step]
  cases fetch s with
  | run i t => exact exec_eq_stateAfter i t
  | idle t | illegal op t | resetNow t => rfl

/-- Settles O46: a step is the total function `stateAfterFetch` of what is fetched. -/
theorem everyStepAnswersANextState : Obligations.EveryStepAnswersANextState :=
  fun s => ⟨_, step_eq_stateAfterFetch s⟩

/-! ## Each form of the oldest request -/

theorem step_of_command {s : State} {i : Instr} {q : List Request} (h : s.inbox = .command i :: q) :
    step s = exec i (s.setInbox q) := by
  rw [step, fetch_command h]

theorem step_of_reserved {s : State} {bs rest : List Byte} {q : List Request} {op : Byte}
    (h : s.inbox = .bytes bs :: q) (hd : decode bs = .reserved op rest) :
    step s = .next ((s.setInbox (requeue rest q)).raise (.illegalOp op)) := by
  rw [step_eq_stateAfterFetch, fetch_bytes h, fetchBytes, hd, stateAfterFetch]

theorem step_of_truncated {s : State} {bs : List Byte} {q : List Request} {op : Byte}
    (h : s.inbox = .bytes bs :: q) (hd : decode bs = .truncated op) :
    step s = .next ((s.setInbox q).raise (.illegalOp op)) := by
  rw [step_eq_stateAfterFetch, fetch_bytes h, fetchBytes, hd, stateAfterFetch]

/-- Settles O3: the reset event writes the counter and the output alone. -/
theorem resetEventKeepsChannels : Obligations.ResetEventKeepsChannels := fun _ _ h => step_of_reset h

/-- Settles O4: the four forms a request with something to decode can take. -/
theorem stepRunsTheDecodedCommand : Obligations.StepRunsTheDecodedCommand := by
  refine ⟨fun s bs rest q i h hd => ?_, fun s q i h => step_of_command h, fun s bs rest q op h hd => ?_,
    fun s bs q op h hd => step_of_truncated h hd⟩
  · rw [← requeue_eq_ite]
    exact step_of_decoded_command h hd
  · rw [← requeue_eq_ite]
    exact step_of_reserved h hd

/-- Settles O5: with an empty inbox, or an empty string at its head, the fetch is idle. -/
theorem nothingToDecodeWaits : Obligations.NothingToDecodeWaits := by
  refine ⟨fun s h => ?_, fun s q h => ?_⟩
  · rw [step, fetch_nil h]
  · rw [step, fetch_bytes h]
    rfl

/-! ## A request sent behind others -/

/-- What is fetched, with one request more sent behind those left. -/
def Fetched.send (r : Request) : Fetched → Fetched
  | .idle t => .idle (t.send r)
  | .illegal op t => .illegal op (t.send r)
  | .run i t => .run i (t.send r)
  | .resetNow t => .resetNow (t.send r)

theorem fetchBytes_send (bs : List Byte) (q : List Request) (s : State) (r : Request) :
    fetchBytes bs (q ++ [r]) (s.send r) = (fetchBytes bs q s).send r := by
  cases hd : decode bs with
  | waiting | truncated op => simp only [fetchBytes, hd]; rfl
  | reserved op rest | command i rest => simp only [fetchBytes, hd, requeue_append]; rfl

/-- A request sent behind others is not taken. -/
theorem fetch_send {s : State} (h : s.inbox ≠ []) (r : Request) : fetch (s.send r) = (fetch s).send r := by
  obtain ⟨oldest, q, hin⟩ := List.exists_cons_of_ne_nil h
  have hin' : (s.send r).inbox = oldest :: (q ++ [r]) := by rw [State.send_inbox, hin, List.cons_append]
  cases oldest with
  | bytes bs => rw [fetch_bytes hin', fetch_bytes hin, fetchBytes_send]
  | command i => rw [fetch_command hin', fetch_command hin]; rfl
  | reset => rw [fetch_reset hin', fetch_reset hin]; rfl

/-- Nothing a step does after the fetch reads or writes the inbox. -/
theorem stateAfterFetch_send (f : Fetched) (r : Request) : stateAfterFetch (f.send r) = (stateAfterFetch f).send r := by
  cases f <;> rfl

/-- Settles O11: the fetch leaves the later request where it is, and the rest of the step does not see it. -/
theorem laterRequestsDoNotDisturbAStep : Obligations.LaterRequestsDoNotDisturbAStep := by
  intro s t r hne hstep
  rw [step_eq_stateAfterFetch] at hstep ⊢
  cases hstep
  rw [fetch_send hne, stateAfterFetch_send]

/-! ## Fixed words and parameters -/

/-- Settles O9: the words of 95_test_vectors.md section 2.8, decoded. -/
theorem decodesTheSpecsWords : Obligations.DecodesTheSpecsWords := by
  unfold Obligations.DecodesTheSpecsWords
  decide

/-- Settles O48: an equation of numerals for each relation between the parameters. -/
theorem parametersAgree : Obligations.ParametersAgree := by
  unfold Obligations.ParametersAgree
  decide

end Sys2Proof.Machine
end

section
/-! PROOF. What each command leaves unchanged, and what moves the counter (10_state.md R17, R18;
20_memory.md R37, R42). -/

namespace Sys2Proof.Machine

/-- Settles O41: the layout of two runs of groups is the second's from the counter the first leaves. -/
theorem counterCarriesOverBetweenGroups : Obligations.CounterCarriesOverBetweenGroups := by
  intro gs hs c s hc
  refine ⟨_, _, execAll_eq_stateAfterAll _ s, execAll_eq_stateAfterAll _ _, ?_⟩
  rw [stateAfterAll_groups gs hc, stateAfterAll_groups hs rfl, layout_append]
  exact ⟨rfl, rfl, rfl, List.append_assoc _ _ _⟩

/-- Settles O49: the frame is read off `stateAfter`, command by command. -/
theorem commandFrames : Obligations.CommandFrames := by
  intro i s t h
  obtain rfl := eq_stateAfter_of_exec h
  refine ⟨rfl, List.take_left, by simp, ?_, ?_, ?_, ?_⟩
  · rintro w rfl
    exact ⟨rfl, List.append_nil _⟩
  · rintro image a rfl
    exact ⟨rfl, List.append_nil _⟩
  · rintro a rfl
    exact ⟨List.append_nil _, fun ha => if_pos ha⟩
  · rintro b0 b1 b2 b3 rfl hc
    rw [stateAfter_group_of_unseeded b0 b1 b2 b3 hc]
    exact ⟨rfl, rfl⟩

/-- The counter moves only at a START with a non-negative address and at a seeded GROUP. -/
theorem cntAfter_ne_self {i : Instr} {cnt : Option Nat} (h : cntAfter i cnt ≠ cnt) :
    (∃ a, i = .start a ∧ 0 ≤ a ∧ cntAfter i cnt = some (a % 32).toNat) ∨
      ∃ b0 b1 b2 b3 c, i = .group b0 b1 b2 b3 ∧ cnt = some c ∧
        cntAfter i cnt = some (if c + 5 = 30 then 0 else c + 5) := by
  cases i with
  | enc w => exact absurd rfl h
  | xform image a => exact absurd rfl h
  | start a =>
    rcases lt_or_ge a 0 with ha | ha
    · exact absurd (if_pos ha) h
    · exact .inl ⟨a, rfl, ha, cntAfter_start ha cnt⟩
  | group b0 b1 b2 b3 =>
    cases cnt with
    | none => exact absurd rfl h
    | some c => exact .inr ⟨b0, b1, b2, b3, c, rfl, rfl, congrArg some (groupStep_fst c _)⟩

/-- Settles O51: of all a step can do, only a reset event and a command move the counter. -/
theorem counterWriters : Obligations.CounterWriters := by
  intro s t hstep hne
  obtain ⟨q, h | ⟨op, h⟩ | ⟨i, hfetch, h⟩ | ⟨hfetch, h⟩⟩ := step_cases s <;> rw [h] at hstep
  · cases hstep
    exact absurd rfl hne
  · cases hstep
    exact absurd rfl hne
  · obtain rfl := eq_stateAfter_of_exec hstep
    obtain ⟨a, rfl, ha, hcnt⟩ | ⟨b0, b1, b2, b3, c, rfl, hc, hcnt⟩ := cntAfter_ne_self hne
    · exact .inr (.inl ⟨_, a, hfetch, ha, hcnt⟩)
    · exact .inr (.inr ⟨_, b0, b1, b2, b3, c, hfetch, hc, hcnt⟩)
  · cases hstep
    exact .inl ⟨_, hfetch, rfl⟩

/-- Settles O55: a START seeds an aligned value, and a group step leads from ALIGNED into ALIGNED. -/
theorem alignedCounterIsKept : Obligations.AlignedCounterIsKept := by
  intro i s t hcnt hstart h c hc
  obtain rfl := eq_stateAfter_of_exec h
  rw [stateAfter_cnt] at hc
  by_cases hkeep : cntAfter i s.cnt = s.cnt
  · exact hcnt c (hkeep ▸ hc)
  · obtain ⟨a, hi, ha, hseed⟩ | ⟨b0, b1, b2, b3, d, rfl, hd, -⟩ := cntAfter_ne_self hkeep
    · obtain rfl := Option.some.inj (hseed.symm.trans hc)
      exact hstart a hi ha
    · rw [hd] at hc
      obtain rfl := Option.some.inj hc
      exact groupStep_fst_mem_alignedOffsets (hcnt d hd) _

end Sys2Proof.Machine
end

section
/-! PROOF. The status codes: who raises each error and when (60_exceptions.md R90 to R95). -/

namespace Sys2Proof.Machine

/-- A command only raises an error exactly when its response is that error. -/
theorem exec_eq_raise_iff (i : Instr) (s : State) (e : CommandError) :
    exec i s = .next (s.raise e) ↔ responseTo i s.cnt = .error e := by
  rw [exec_eq_stateAfter, Host.Outcome.next.injEq]
  refine ⟨fun h => ?_, stateAfter_of_error⟩
  have hresp := congrArg State.responses h
  rw [stateAfter_responses, State.raise_responses, List.append_cancel_left_eq] at hresp
  exact (List.cons.inj hresp).1

/-- The rows of R90's table that a command raises: the command, the cause and the recorded value. -/
theorem responseTo_eq_error_iff (i : Instr) (cnt : Option Nat) (e : CommandError) :
    responseTo i cnt = .error e ↔
      ((∃ image a, i = .xform image a ∧ (image.length = 0 ∨ image.length % 4 ≠ 0) ∧ e = .inputLength image.length) ∨
       (∃ a, a < 0 ∧ e = .address a ∧ (i = .start a ∨
          ∃ image, i = .xform image a ∧ image.length ≠ 0 ∧ image.length % 4 = 0)) ∨
       (∃ b0 b1 b2 b3, i = .group b0 b1 b2 b3 ∧ cnt = none ∧ e = .notStarted)) := by
  constructor
  · intro h
    cases i with
    | enc w => cases h
    | start a =>
      rcases lt_or_ge a 0 with ha | ha
      · have he : responseTo (.start a) cnt = .error (.address a) := if_pos ha
        cases he.symm.trans h
        exact .inr (.inl ⟨a, ha, rfl, .inl rfl⟩)
      · have hok : responseTo (.start a) cnt = .ok .nothing := if_neg (not_lt.mpr ha)
        cases hok.symm.trans h
    | group b0 b1 b2 b3 =>
      cases cnt with
      | none =>
        cases h
        exact .inr (.inr ⟨b0, b1, b2, b3, rfl, rfl, rfl⟩)
      | some c => cases h
    | xform image a =>
      by_cases hbad : image.length = 0 ∨ image.length % 4 ≠ 0
      · cases (responseTo_xform_bad_length hbad a cnt).symm.trans h
        exact .inl ⟨image, a, rfl, hbad, rfl⟩
      · obtain ⟨hne, hlen⟩ : image.length ≠ 0 ∧ image.length % 4 = 0 := by omega
        rcases lt_or_ge a 0 with ha | ha
        · cases (responseTo_xform_neg hne hlen cnt ha).symm.trans h
          exact .inr (.inl ⟨a, ha, rfl, .inr ⟨image, rfl, hne, hlen⟩⟩)
        · cases (responseTo_xform_ok hne hlen cnt ha).symm.trans h
  · rintro (⟨image, a, rfl, hbad, rfl⟩ | ⟨a, ha, rfl, rfl | ⟨image, rfl, hne, hlen⟩⟩ | ⟨b0, b1, b2, b3, rfl, rfl, rfl⟩)
    · exact responseTo_xform_bad_length hbad a cnt
    · exact if_pos ha
    · exact responseTo_xform_neg hne hlen cnt ha
    · rfl

theorem fetchBytes_eq_illegal_iff (bs : List Byte) (q : List Request) (s t : State) (op : Byte) :
    fetchBytes bs q s = .illegal op t ↔ (decode bs = .truncated op ∧ t = s.setInbox q) ∨
      ∃ rest, decode bs = .reserved op rest ∧ t = s.setInbox (requeue rest q) := by
  cases hd : decode bs <;> simp [fetchBytes, hd, eq_comm]

/-- Only a byte string is answered with ERR_ILLEGAL_OP. -/
theorem fetch_eq_illegal_iff (s t : State) (op : Byte) :
    fetch s = .illegal op t ↔ ∃ bs q, s.inbox = .bytes bs :: q ∧ fetchBytes bs q s = .illegal op t := by
  constructor
  · intro h
    rcases hin : s.inbox with _ | ⟨bs | i | _, q⟩
    · rw [fetch_nil hin] at h
      cases h
    · rw [fetch_bytes hin] at h
      exact ⟨bs, q, rfl, h⟩
    · rw [fetch_command hin] at h
      cases h
    · rw [fetch_reset hin] at h
      cases h
  · rintro ⟨bs, q, hin, h⟩
    rw [fetch_bytes hin, h]

/-- Settles O44: the table row by row; the commands' rows by `responseTo`, the decoder's by the fetch. -/
theorem statusCodeTable : Obligations.StatusCodeTable := by
  refine ⟨fun v => rfl, fun n => ⟨rfl, rfl⟩, fun a => ⟨rfl, rfl⟩, ⟨rfl, rfl⟩, fun op => ⟨rfl, rfl⟩, fun c => rfl,
    fun i s e => (exec_eq_raise_iff i s e).trans (responseTo_eq_error_iff i s.cnt e), fun s t op => ?_,
    fun s t op h => ?_, fun i s c h => ?_⟩
  · simp only [fetch_eq_illegal_iff, fetchBytes_eq_illegal_iff, requeue_eq_ite]
    rfl
  · rw [step, h]
    rfl
  · rw [exec_eq_stateAfter] at h
    cases h

end Sys2Proof.Machine
end
